-- ==== Sys2Proof/Word.lean ====
section
/-! DEFINITION. The words of the block's ports: the Bit of 00_scope.md R14 and the 16-bit command word of
30_encoding.md R55. -/

namespace Sys2Proof

/-- A Bit has the value 0 (`false`) or 1 (`true`) (00_scope.md R14). -/
abbrev Bit := Bool

/-- A command is one 16-bit word (30_encoding.md R55). -/
abbrev CommandWord := BitVec 16

end Sys2Proof
end

