-- ==== Sys2Proof/Machine/Layout.lean ====
section
/-! DEFINITION. The layout algebra of 40_layout.md: pure functions on natural numbers and bit arrays (R80), with
the bit-sequence codec of 00_scope.md R16 and the minimal width of R17. A bit array is a function from positions,
numbered from 1 (R12), to Bits; no function here reads or writes state. -/

namespace Sys2Proof.Machine

/-- `bitlen(x)`, the number of binary digits of `x`: the index of the highest set bit plus one, and 0 for 0 (R82). -/
def bitlen (x : Nat) : Nat := if x = 0 then 0 else x.log2 + 1

/-- `mw(v)`, the minimal width of a payload integer: `bitlen(v)`, and 1 for 0 (R17). -/
def mw (v : Nat) : Nat := if v = 0 then 1 else bitlen v

/-- The search of R83 from `k` on: add 1 to `k` while `2^k < k + m + 1`. The first argument bounds the number of
additions, so that the search is structural. -/
def kreqFrom (m : Nat) : Nat → Nat → Nat
  | 0, k => k
  | bound + 1, k => if 2 ^ k < k + m + 1 then kreqFrom m bound (k + 1) else k

/-- `kreq(m)`, the required parity count: the smallest `k` with `2^k >= k + m + 1`, searched from 0 (R83). The bound
`m + 1` is never what ends the search, since `2^(m+1) >= (m+1) + m + 1`. -/
def kreq (m : Nat) : Nat := kreqFrom m (m + 1) 0

/-- `is_pow2(i)`: `i >= 1` and `(i & (i - 1)) = 0` (R84). -/
def isPow2 (i : Nat) : Bool := decide (1 ≤ i) && (i &&& (i - 1)) == 0

/-- `ppos(n)`, the parity positions of a codeword of total length `n`, ascending (R85). -/
def ppos (n : Nat) : List Nat := (List.range (bitlen n)).map (2 ^ ·)

/-- The positions `1..n`, ascending (R12). -/
def positions (n : Nat) : List Nat := List.range' 1 n

/-- The data positions of a codeword of length `n`: those that are no power of two, ascending (10_state.md R28). -/
def dataPositions (n : Nat) : List Nat := (positions n).filter fun i => !isPow2 i

/-- `cover(p, n)`, the positions `i` in `[1, n]` with `(i & p) = p`, ascending (R87). -/
def cover (p n : Nat) : List Nat := (positions n).filter fun i => i &&& p == p

/-- `XOR over S of f(i)`, the XOR-reduction of the Bits `f(i)`; 0 when `S` is empty (R14). -/
def xorOver (S : List Nat) (f : Nat → Bit) : Bit := S.foldr (fun i acc => f i ^^ acc) false

/-- The computed parity Bit of one parity position `p`: the XOR of the bits at its covered positions, its own slot
included (R89). -/
def parityOf (c : Nat → Bit) (n p : Nat) : Bit := xorOver (cover p n) c

/-- `parity_vec(c, n)`: one parity Bit per parity position, ascending (R89). -/
def parityVec (c : Nat → Bit) (n : Nat) : List Bit := (ppos n).map (parityOf c n)

/-- A Bit sequence read as a binary integer with its LAST Bit the most significant: "read from largest parity position
to smallest" (R90). -/
def valueLsbFirst : List Bit → Nat
  | [] => 0
  | b :: bs => b.toNat + 2 * valueLsbFirst bs

/-- `syndrome_value(c, n)`: `parity_vec(c, n)` as an integer, the largest parity position highest (R90). -/
def syndromeValue (c : Nat → Bit) (n : Nat) : Nat := valueLsbFirst (parityVec c n)

/-- The XOR, as integers, of the positions of the set bits: the second form of the syndrome (R91). -/
def xorOfSetPositions (c : Nat → Bit) (n : Nat) : Nat :=
  ((positions n).filter c).foldr (fun i acc => i ^^^ acc) 0

/-- The number of the payload bit that data position `i` holds, `i - bitlen(i)` (R92). -/
def payloadIndex (i : Nat) : Nat := i - bitlen i

/-- `dpos(j)`, the position of payload bit `j`: the `j`-th position that is no power of two (R92). It is at most
`2j + 1`, so the search looks no further. -/
def dpos (j : Nat) : Nat := (dataPositions (2 * j + 1)).getD (j - 1) 0

/-- `int(s)`, the encode direction of the codec: the sequence folded most significant bit first, by shift and OR
(R16). -/
def intOf (s : List Bit) : Nat := s.foldl (fun acc b => (acc <<< 1) ||| b.toNat) 0

/-- `bits_L(v)`, the decode direction: the length-`L` sequence whose element `i` is `v[L-i]` (R16). -/
def bitsOf (L v : Nat) : List Bit := (positions L).map fun i => v.testBit (L - i)

/-- An XOR tree over positions: any reduction tree may compute a parity Bit (R93). -/
inductive XorTree
  | leaf (position : Nat)
  | node (left right : XorTree)
  deriving DecidableEq, Repr

/-- The positions a tree reduces, left to right (R93). -/
def xorTreeLeaves : XorTree → List Nat
  | .leaf i => [i]
  | .node l r => xorTreeLeaves l ++ xorTreeLeaves r

/-- The Bit a tree computes over a bit array (R93). -/
def xorTreeValue (c : Nat → Bit) : XorTree → Bit
  | .leaf i => c i
  | .node l r => xorTreeValue c l ^^ xorTreeValue c r

/-- The number of inputs of the XOR tree of parity position `p` (70_reset_and_hazards.md R187). -/
def xorTreeInputs (p n : Nat) : Nat := (cover p n).length

/-- The depth R187 gives that tree, `ceil(log2 inputs)`: a timing figure; nothing in the model depends on it. -/
def xorTreeDepth (p n : Nat) : Nat := bitlen (xorTreeInputs p n - 1)

/-- The bit vector of width `w` whose position `i` (bit `i - 1`) is `f i`, for `i` in `1..w`. -/
def ofPositions : (w : Nat) → (Nat → Bit) → BitVec w
  | 0, _ => 0#0
  | w + 1, f => BitVec.cons (f (w + 1)) (ofPositions w f)

/-- `CW[i]`, the bit at position `i` of a codeword array; position 0 does not exist (00_scope.md R12) and, like a
position above the width, reads 0. -/
def bitAt (cw : BitVec w) (i : Nat) : Bit := decide (1 ≤ i) && cw.getLsbD (i - 1)

end Sys2Proof.Machine
end

