-- ==== Sys2Proof/Config.lean ====
section
/-! DEFINITION. The implementation parameters of 00_scope.md section 3. -/

namespace Sys2Proof

/-- One configuration of the block: `M_MAX`, the maximum payload length, with `1 <= M_MAX <= 120` (R5). -/
structure Config where
  mMax : Nat
  mMax_pos : 1 ≤ mMax
  mMax_le : mMax ≤ 120
  deriving DecidableEq, Repr

/-- `K_MAX = kreq(M_MAX)` (R7). -/
def Config.kMax (c : Config) : Nat := Machine.kreq c.mMax

/-- `N_MAX = M_MAX + K_MAX`, the maximum codeword length and the width of the codeword registers and of din (R7). -/
def Config.nMax (c : Config) : Nat := c.mMax + c.kMax

/-- `SW = bitlen(N_MAX)`, the width of SYN (R8). -/
def Config.sw (c : Config) : Nat := Machine.bitlen c.nMax

/-- The reference configuration, `M_MAX = 64` (R6). DESIGN CHOICE (log 1): it is the configuration of the machine
under the host's names; every layer below takes any configuration. -/
def Config.reference : Config := ⟨64, by decide, by decide⟩

/-- `CMD_LATENCY`, the clock cycles of one transaction: OPEN, and no rule depends on it (R11). It has no value here,
and nothing in the model reads it (log 8). -/
opaque Config.cmdLatency (c : Config) : Nat

end Sys2Proof
end

