-- ==== Sys2Proof/Syntax.lean ====
section
/-! DEFINITION. The nine commands of 30_encoding.md R60 to R68, one constructor for each row of spec/opcode_table.json. -/

namespace Sys2Proof

/-- A codeword register selector (00_scope.md R9, 30_encoding.md R57): 0 is r0, 1 is r1. -/
inductive Reg
  | r0
  | r1
  deriving DecidableEq, Repr

/-- The name of a command (30_encoding.md R73). -/
inductive Mnemonic
  | LOADI | LOADB | LOADC | SPACE | POPULATE | FLIP | SYNDROME | CLONE | CLRERR
  deriving DecidableEq, Repr

/-- The commands, with the operands their words carry (R60 to R68). A length or position is a natural number: the
rules compare and subtract it, and never mask it (00_scope.md R19). The din operand of a transaction is no part of the
word (20_memory.md R43). -/
inductive Instr
  | loadi (rd : Reg)
  | loadb (rd : Reg) (m : Nat)
  | loadc (rd : Reg) (n : Nat)
  | space (rd : Reg)
  | populate (rd : Reg)
  | flip (rd : Reg) (pos : Nat)
  | syndrome (rd : Reg)
  | clone (rd rs : Reg)
  | clrerr
  deriving DecidableEq, Repr

/-- The command's name. -/
def Instr.mnemonic : Instr → Mnemonic
  | .loadi _ => .LOADI
  | .loadb _ _ => .LOADB
  | .loadc _ _ => .LOADC
  | .space _ => .SPACE
  | .populate _ => .POPULATE
  | .flip _ _ => .FLIP
  | .syndrome _ => .SYNDROME
  | .clone _ _ => .CLONE
  | .clrerr => .CLRERR

/-- The commands that read din (30_encoding.md R71). -/
def Instr.readsDin : Instr → Bool
  | .loadi _ => true
  | .loadb _ _ => true
  | .loadc _ _ => true
  | .space _ => false
  | .populate _ => false
  | .flip _ _ => false
  | .syndrome _ => false
  | .clone _ _ => false
  | .clrerr => false

end Sys2Proof
end

