-- ==== Sys2Proof/WellFormed.lean ====
section
/-! DEFINITION. Which commands have a word: those whose length or position fits the 7-bit immediate field. -/

namespace Sys2Proof

/-- A numeral above 127 does not fit IMM (30_encoding.md R58, R73). -/
def fitsImm (n : Nat) : Bool := decide (n ≤ 127)

/-- Every operand fits its field (R73). A value that fits its field but is out of the command's range is well formed
and faults at run time. -/
def Instr.wellFormed : Instr → Bool
  | .loadi _ => true
  | .loadb _ m => fitsImm m
  | .loadc _ n => fitsImm n
  | .space _ => true
  | .populate _ => true
  | .flip _ pos => fitsImm pos
  | .syndrome _ => true
  | .clone _ _ => true
  | .clrerr => true

end Sys2Proof
end

