-- ==== Sys2Proof/Decode.lean ====
section
/-! DEFINITION. Decoding of 30_encoding.md section 3, total on all 65536 words (R70), and the encoder written from the
same section's encodings (R60 to R68). -/

namespace Sys2Proof

/-- What `decode` answers: a command, or ILLEGAL (R70). -/
inductive Decoded
  | command (i : Instr)
  | illegal
  deriving DecidableEq, Repr

/-- One row of the opcode map: a word is this command if and only if `(w & mask) = value` (30_encoding.md section 2;
the spec calls the value `match`). -/
structure OpcodeRow where
  name : Mnemonic
  value : CommandWord
  mask : CommandWord
  deriving DecidableEq, Repr

/-- The rows of R60 to R68. -/
def opcodeRows : List OpcodeRow :=
  [⟨.LOADI, 0x1000, 0xF7FF⟩,
   ⟨.LOADB, 0x2000, 0xF780⟩,
   ⟨.LOADC, 0x3000, 0xF780⟩,
   ⟨.SPACE, 0x4000, 0xF7FF⟩,
   ⟨.POPULATE, 0x5000, 0xF7FF⟩,
   ⟨.FLIP, 0x6000, 0xF780⟩,
   ⟨.SYNDROME, 0x7000, 0xF7FF⟩,
   ⟨.CLONE, 0x8000, 0xF3FF⟩,
   ⟨.CLRERR, 0x9000, 0xFFFF⟩]

/-- `(w & mask) == match` (R70). -/
def rowMatches (w : CommandWord) (r : OpcodeRow) : Bool := w &&& r.mask == r.value

/-- The field OPC, bits 15:12 (R56). -/
def opcOf (w : CommandWord) : BitVec 4 := w.extractLsb' 12 4

/-- The field Z, bits 9:7 (R56). -/
def zOf (w : CommandWord) : BitVec 3 := w.extractLsb' 7 3

/-- The field IMM, bits 6:0, zero-extended (R58). -/
def immOf (w : CommandWord) : Nat := (w.extractLsb' 0 7).toNat

/-- A 1-bit register field: 0 is r0, 1 is r1 (R56). -/
def regOfBit (b : Bit) : Reg := if b then .r1 else .r0

/-- The field RD, bit 11 (R57). -/
def rdOf (w : CommandWord) : Reg := regOfBit (w.getLsbD 11)

/-- The field RS, bit 10 (R57). -/
def rsOf (w : CommandWord) : Reg := regOfBit (w.getLsbD 10)

/-- The command of a row's name, with the operands `rd`, `rs` and `imm` that it uses (R60 to R68). -/
def commandOf (name : Mnemonic) (rd rs : Reg) (imm : Nat) : Instr :=
  match name with
  | .LOADI => .loadi rd
  | .LOADB => .loadb rd imm
  | .LOADC => .loadc rd imm
  | .SPACE => .space rd
  | .POPULATE => .populate rd
  | .FLIP => .flip rd imm
  | .SYNDROME => .syndrome rd
  | .CLONE => .clone rd rs
  | .CLRERR => .clrerr

/-- `decode(w)`: the first row that matches gives the command; with none the word is ILLEGAL (R70). -/
def decode (w : CommandWord) : Decoded :=
  match opcodeRows.find? (rowMatches w) with
  | some r => .command (commandOf r.name (rdOf w) (rsOf w) (immOf w))
  | none => .illegal

/-- A register selector as its field's bit (R57). -/
def bitOfReg : Reg → Bit
  | .r0 => false
  | .r1 => true

/-- The word of a pattern of R60 to R68: the fields OPC, RD, RS, Z = 000 and IMM side by side (R56). -/
def packFields (opc : BitVec 4) (rd rs : Bit) (imm : Nat) : CommandWord :=
  opc ++ BitVec.ofBool rd ++ BitVec.ofBool rs ++ 0#3 ++ BitVec.ofNat 7 imm

/-- The word of a well-formed command, from the patterns of R60 to R68. A field the command does not use is 0. -/
def encode : Instr → CommandWord
  | .loadi rd => packFields 0x1 (bitOfReg rd) false 0
  | .loadb rd m => packFields 0x2 (bitOfReg rd) false m
  | .loadc rd n => packFields 0x3 (bitOfReg rd) false n
  | .space rd => packFields 0x4 (bitOfReg rd) false 0
  | .populate rd => packFields 0x5 (bitOfReg rd) false 0
  | .flip rd pos => packFields 0x6 (bitOfReg rd) false pos
  | .syndrome rd => packFields 0x7 (bitOfReg rd) false 0
  | .clone rd rs => packFields 0x8 (bitOfReg rd) (bitOfReg rs) 0
  | .clrerr => packFields 0x9 false false 0

/-- The command word whose low `nbits` bits are those of `w` and whose other bits are 0: the table's rows have 16. -/
def tableWord (nbits w : Nat) : CommandWord := BitVec.ofNat 16 (w % 2 ^ nbits)

/-- The command the decoder reads from a word numbered as spec/opcode_table.json numbers it. A command has exactly 16
bits (R55), so a longer word is none. -/
def decodeTableWord (nbits w : Nat) : Option Instr :=
  if nbits ≤ 16 then
    match decode (tableWord nbits w) with
    | .command i => some i
    | .illegal => none
  else none

end Sys2Proof
end

