-- ==== Sys2Proof/Machine/State.lean ====
section
/-! DEFINITION. The state of the machine: the architectural state of 10_state.md R20 for any configuration, and, for
the reference configuration, that state with the values at the block's input ports. -/

namespace Sys2Proof.Machine

/-- The lifecycle state of a codeword register (10_state.md R24). -/
inductive Lifecycle
  | empty
  | payload
  | spaced
  | populated
  deriving DecidableEq, Repr

/-- The causes a transaction can fault with (60_exceptions.md R151, codes 1 to 4). -/
inductive FaultCause
  | illegal
  | range
  | length
  | sequence
  deriving DecidableEq, Repr

/-- A codeword register: the triple `(CW[r], LEN[r], ST[r])` (10_state.md R21 to R24). Position `i` of the codeword is
bit `i - 1` of `cw` (DESIGN CHOICE, log 5: no port shows it). -/
structure CodewordReg (c : Config) where
  cw : BitVec c.nMax
  len : BitVec 7
  st : Lifecycle
  deriving DecidableEq, Repr

/-- The fields of STATUS (10_state.md R30 to R33). `cause` is `none` for the code 0 (NONE). Bit 7 is hardwired 0 (R34)
and has no field; the codes 5, 6 and 7 of CAUSE are never produced (R32) and have no value here (DESIGN CHOICE, log 7). -/
structure Status where
  err : Bit
  cause : Option FaultCause
  sv : Bit
  sz : Bit
  soor : Bit
  deriving DecidableEq, Repr

/-- The architectural state `S`, exactly the tuple of 10_state.md R20. -/
structure Arch (c : Config) where
  r0 : CodewordReg c
  r1 : CodewordReg c
  syn : BitVec c.sw
  status : Status
  ecmd : CommandWord
  deriving DecidableEq, Repr

/-- The values at the three input ports, sampled together, once per transaction (20_memory.md R41, R43). -/
structure PortSample (c : Config) where
  cmd : CommandWord
  din : BitVec c.nMax
  rst : Bit
  deriving DecidableEq, Repr

/-- The machine: the architectural state, the input ports as sampled for the transaction being executed, and the
samples the host has yet to present, oldest first (20_memory.md R43, R51). `port` and `queue` are the model's own: R20
says that the command word and din are not state (DESIGN CHOICE, log 2). -/
structure State where
  arch : Arch Config.reference
  port : PortSample Config.reference
  queue : List (PortSample Config.reference)
  deriving DecidableEq, Repr

/-- Why the machine stops with a fault: it never does. A fault of the spec is a refused transaction after which the
block goes on (60_exceptions.md R150, R160), so it is a next state; nobody raises a stop, and the type is empty (safe:
it adds no behaviour). -/
inductive Fault
  deriving DecidableEq, Repr

/-- Why the model gives no meaning. -/
inductive Refusal
  /-- Raised by an arm of `exec` whose instruction has no meaning yet; no arm does (safe: the machine would go on). -/
  | notModelled (mnemonic : String)
  deriving DecidableEq, Repr

/-- A codeword register after reset: EMPTY, LEN 0, every bit 0 (10_state.md R22 to R24, R39). -/
def CodewordReg.reset (c : Config) : CodewordReg c := ⟨0#c.nMax, 0#7, .empty⟩

/-- STATUS after reset: 0x00 (10_state.md R31 to R34, R39). -/
def Status.reset : Status := ⟨false, none, false, false, false⟩

/-- The architectural state after reset (10_state.md R39, 70_reset_and_hazards.md R180). -/
def Arch.reset (c : Config) : Arch c :=
  ⟨CodewordReg.reset c, CodewordReg.reset c, 0#c.sw, Status.reset, 0x0000⟩

/-- The machine after reset: idle, waiting for its first transaction (R180). The input ports hold 0 and nothing is
queued (DESIGN CHOICE, log 3: they are no state of the spec). -/
def State.reset : State := ⟨Arch.reset Config.reference, ⟨0x0000, 0#_, false⟩, []⟩

end Sys2Proof.Machine
end

