-- ==== Sys2Proof/Machine/Flags.lean ====
section
/-! DEFINITION. The STATUS register as a word, its codes, and the syndrome flags. -/

namespace Sys2Proof.Machine

/-- The 2-bit code of a lifecycle state (10_state.md R24). -/
def lifecycleCode : Lifecycle → BitVec 2
  | .empty => 0
  | .payload => 1
  | .spaced => 2
  | .populated => 3

/-- The 3-bit cause code; 0 is NONE (60_exceptions.md R151). -/
def causeCode : Option FaultCause → BitVec 3
  | none => 0
  | some .illegal => 1
  | some .range => 2
  | some .length => 3
  | some .sequence => 4

/-- STATUS as its 8-bit word: ERR bit 0, CAUSE bits 3:1, SV 4, SZ 5, SOOR 6, bit 7 hardwired 0 (10_state.md R30). -/
def statusWord (x : Status) : BitVec 8 :=
  0#1 ++ BitVec.ofBool x.soor ++ BitVec.ofBool x.sz ++ BitVec.ofBool x.sv ++ causeCode x.cause ++ BitVec.ofBool x.err

/-- The flags of a completed SYNDROME with syndrome `s` of a codeword of length `n`: SV set, SZ when `s` is 0, SOOR when
`s` is above `n` (43_decoder.md R131). ERR and CAUSE stay. -/
def syndromeFlags (x : Status) (s n : Nat) : Status :=
  { x with sv := true, sz := decide (s = 0), soor := decide (n < s) }

/-- STATUS with ERR and CAUSE cleared (44_control.md R145). -/
def clearedStatus (x : Status) : Status := { x with err := false, cause := none }

/-- STATUS with a fault recorded (60_exceptions.md R155). -/
def faultedStatus (x : Status) (f : FaultCause) : Status := { x with err := true, cause := some f }

end Sys2Proof.Machine
end

