-- ==== Sys2Proof/Machine/Operands.lean ====
section
/-! DEFINITION. The operand forms of the commands: a codeword register named by RD or RS, a length or position in IMM,
and the din operand. -/

namespace Sys2Proof.Machine

/-- The codeword register a selector names (10_state.md R21). -/
def Arch.reg (a : Arch c) : Reg → CodewordReg c
  | .r0 => a.r0
  | .r1 => a.r1

/-- Writing the codeword register a selector names; the other one shares no bit with it (10_state.md R21). -/
def Arch.setReg (a : Arch c) (r : Reg) (x : CodewordReg c) : Arch c :=
  match r with
  | .r0 => { a with r0 := x }
  | .r1 => { a with r1 := x }

/-- `CW[r][i]`, the bit at position `i` of the register (00_scope.md R12). -/
def CodewordReg.bit (x : CodewordReg c) (i : Nat) : Bit := bitAt x.cw i

/-- `LEN[r]` as a number (10_state.md R23). -/
def CodewordReg.length (x : CodewordReg c) : Nat := x.len.toNat

/-- `din >> L = 0`: the length holds the value (30_encoding.md R71). -/
def fitsLength (din : BitVec w) (L : Nat) : Bool := din >>> L == 0#w

/-- A load of length `L` from din: `CW[i] = din[L - i]` for `1 <= i <= L`, and 0 above (20_memory.md R48, 10_state.md
R25). -/
def loadBits (din : BitVec w) (L : Nat) : BitVec w :=
  ofPositions w fun i => decide (i ≤ L) && din.getLsbD (L - i)

/-- The register after a load of length `L` from din (41_encoder.md R100, R101; 43_decoder.md R130). -/
def loadedReg (c : Config) (din : BitVec c.nMax) (L : Nat) (st : Lifecycle) : CodewordReg c :=
  ⟨loadBits din L, BitVec.ofNat 7 L, st⟩

/-- The payload length of a register, derived and not stored (10_state.md R27). -/
def CodewordReg.payloadLength (x : CodewordReg c) : Nat :=
  match x.st with
  | .empty => 0
  | .payload => x.length
  | .spaced => x.length - bitlen x.length
  | .populated => x.length - bitlen x.length

end Sys2Proof.Machine
end

