-- ==== Sys2Proof/Machine/Ops.lean ====
section
/-! DEFINITION. The operations all commands share: taking a fault (60_exceptions.md R155, ONE operation for every
cause), committing the outcome of a command's pseudocode, sampling the input ports, and reset. There is no return from a
fault (R159): CLRERR, in Control.lean, clears it. The block has no memory (20_memory.md R40), so there is no memory
operation. -/

namespace Sys2Proof.Machine

/-- Taking a fault of cause `f` on the command word `w`: the first fault since the last clear is recorded, a later one
changes nothing (R155). -/
def Arch.raiseFault (a : Arch c) (w : CommandWord) (f : FaultCause) : Arch c :=
  if a.status.err then a else { a with status := faultedStatus a.status f, ecmd := w }

/-- The state after a command: the one its pseudocode gives, or, when it says `raise Fault(f)`, the state before it with
the fault taken (00_scope.md R15). -/
def Arch.commit (a : Arch c) (w : CommandWord) : Except FaultCause (Arch c) → Arch c
  | .ok a' => a'
  | .error f => a.raiseFault w f

/-- The end of a transaction of the machine: the outcome of the command is committed in one atomic step (20_memory.md
R50), with the command word at the port (DESIGN CHOICE, log 10: ECMD takes the word at `cmd`). -/
def State.transact (s : State) (r : Except FaultCause (Arch Config.reference)) : Host.Outcome State Fault Refusal :=
  .next { s with arch := s.arch.commit s.port.cmd r }

/-- Sampling the input ports: the oldest queued sample stands at the ports and leaves the queue (20_memory.md R43). -/
def State.sample (s : State) (p : PortSample Config.reference) (rest : List (PortSample Config.reference)) : State :=
  { s with port := p, queue := rest }

/-- The reset event: every state element takes its reset value, whatever the state and the ports (R180, R181;
DEDUCED, log 11: the sample's own transaction is the one cancelled). -/
def State.resetEvent (s : State) : State := { s with arch := Arch.reset Config.reference }

/-- An illegal word at the command port: the transaction faults with ILLEGAL (R152), before any other check (R156). -/
def State.illegalWord (s : State) : Host.Outcome State Fault Refusal := s.transact (.error .illegal)

/-- The machine with one more transaction for its next step: a command word, with din = 0, before those queued. -/
def State.stageWord (s : State) (w : CommandWord) : State :=
  { s with queue := ⟨w, 0#_, false⟩ :: s.queue }

end Sys2Proof.Machine
end

