-- ==== Sys2Proof/Machine/Control.lean ====
section
/-! DEFINITION. The control command of 44_control.md: CLRERR. -/

namespace Sys2Proof.Machine

/-- The pseudocode of CLRERR (R145): ERR, CAUSE and ECMD are cleared, all else stays. -/
def clrerr (a : Arch c) : Except FaultCause (Arch c) :=
  .ok { a with status := clearedStatus a.status, ecmd := 0x0000 }

/-- CLRERR (R145). -/
def execClrerr (s : State) : Host.Outcome State Fault Refusal :=
  s.transact (clrerr s.arch)

end Sys2Proof.Machine
end

