-- ==== Sys2Proof/Machine/Decoder.lean ====
section
/-! DEFINITION. The decoder commands of 43_decoder.md: LOADC and SYNDROME. -/

namespace Sys2Proof.Machine

/-- The pseudocode of LOADC (R130): a received codeword of length `n`, taken as it is. -/
def loadc (rd : Reg) (n : Nat) (din : BitVec c.nMax) (a : Arch c) : Except FaultCause (Arch c) :=
  if n < 1 ∨ c.nMax < n then .error .length
  else if !fitsLength din n then .error .length
  else .ok (a.setReg rd (loadedReg c din n .populated))

/-- LOADC rd, n (R130). -/
def execLoadc (rd : Reg) (n : Nat) (s : State) : Host.Outcome State Fault Refusal :=
  s.transact (loadc rd n s.port.din s.arch)

/-- The syndrome of a register's codeword at its length (R131). -/
def CodewordReg.syndrome (x : CodewordReg c) : Nat := syndromeValue x.bit x.length

/-- The pseudocode of SYNDROME (R131): SYN and the three syndrome flags, in one step. -/
def syndrome (rd : Reg) (a : Arch c) : Except FaultCause (Arch c) :=
  if (a.reg rd).st = .populated then
    .ok { a with
      syn := BitVec.ofNat c.sw (a.reg rd).syndrome
      status := syndromeFlags a.status (a.reg rd).syndrome (a.reg rd).length }
  else .error .sequence

/-- SYNDROME rd (R131). -/
def execSyndrome (rd : Reg) (s : State) : Host.Outcome State Fault Refusal :=
  s.transact (syndrome rd s.arch)

end Sys2Proof.Machine
end

