-- ==== Sys2Proof/Machine/Encoder.lean ====
section
/-! DEFINITION. The encoder commands of 41_encoder.md. For each command, first the pseudocode of its rule for any
configuration (an error is `raise Fault`), then its meaning on the machine. -/

namespace Sys2Proof.Machine

/-- The pseudocode of LOADI (R100): a payload integer at its minimal width. -/
def loadi (rd : Reg) (din : BitVec c.nMax) (a : Arch c) : Except FaultCause (Arch c) :=
  if c.mMax < mw din.toNat then .error .length
  else .ok (a.setReg rd (loadedReg c din (mw din.toNat) .payload))

/-- LOADI rd (R100). -/
def execLoadi (rd : Reg) (s : State) : Host.Outcome State Fault Refusal :=
  s.transact (loadi rd s.port.din s.arch)

/-- The pseudocode of LOADB (R101): a payload bit sequence of explicit length `m`. -/
def loadb (rd : Reg) (m : Nat) (din : BitVec c.nMax) (a : Arch c) : Except FaultCause (Arch c) :=
  if m < 1 ∨ c.mMax < m then .error .length
  else if !fitsLength din m then .error .length
  else .ok (a.setReg rd (loadedReg c din m .payload))

/-- LOADB rd, m (R101). -/
def execLoadb (rd : Reg) (m : Nat) (s : State) : Host.Outcome State Fault Refusal :=
  s.transact (loadb rd m s.port.din s.arch)

/-- The bit at position `i` after SPACE of a payload `d` to total length `n`: 0 in a parity slot and above `n`, else
payload bit `i - bitlen(i)` (R102). -/
def spacedBit (d : Nat → Bit) (n i : Nat) : Bit :=
  decide (i ≤ n) && (!isPow2 i && d (payloadIndex i))

/-- The register after SPACE: length `m + kreq(m)`, parity slots 0, the data bits in their order (R102). From a length
above M_MAX, which no run reaches, the same formula (DEDUCED, log 6). -/
def spacedReg (x : CodewordReg c) : CodewordReg c :=
  let n := x.length + kreq x.length
  ⟨ofPositions c.nMax (spacedBit x.bit n), BitVec.ofNat 7 n, .spaced⟩

/-- The pseudocode of SPACE (R102): make space for the parity bits. -/
def space (rd : Reg) (a : Arch c) : Except FaultCause (Arch c) :=
  if (a.reg rd).st = .payload then .ok (a.setReg rd (spacedReg (a.reg rd)))
  else .error .sequence

/-- SPACE rd (R102). -/
def execSpace (rd : Reg) (s : State) : Host.Outcome State Fault Refusal :=
  s.transact (space rd s.arch)

/-- The bit at position `i` after POPULATE of a codeword `d` of length `n`: the computed parity at each parity position,
the old bit elsewhere (R103). Every parity reads the state before the command. -/
def populatedBit (d : Nat → Bit) (n i : Nat) : Bit :=
  if i ∈ ppos n then parityOf d n i else d i

/-- The register after POPULATE: length and data positions unchanged (R103). -/
def populatedReg (x : CodewordReg c) : CodewordReg c :=
  ⟨ofPositions c.nMax (populatedBit x.bit x.length), x.len, .populated⟩

/-- The pseudocode of POPULATE (R103): compute the parity and assemble the codeword. -/
def populate (rd : Reg) (a : Arch c) : Except FaultCause (Arch c) :=
  if (a.reg rd).st = .spaced then .ok (a.setReg rd (populatedReg (a.reg rd)))
  else .error .sequence

/-- POPULATE rd (R103). -/
def execPopulate (rd : Reg) (s : State) : Host.Outcome State Fault Refusal :=
  s.transact (populate rd s.arch)

end Sys2Proof.Machine
end

