-- ==== Sys2Proof/Machine/Mutation.lean ====
section
/-! DEFINITION. The mutation commands of 42_mutation.md: FLIP and CLONE. -/

namespace Sys2Proof.Machine

/-- The register with the bit at position `pos` toggled (R120). -/
def flippedReg (x : CodewordReg c) (pos : Nat) : CodewordReg c :=
  { x with cw := ofPositions c.nMax fun i => x.bit i ^^ decide (i = pos) }

/-- The lifecycle states in which FLIP is allowed (R120, 60_exceptions.md R153). -/
def flipAllowed : Lifecycle → Bool
  | .empty => false
  | .payload => true
  | .spaced => false
  | .populated => true

/-- The pseudocode of FLIP (R120): SEQUENCE before RANGE. -/
def flip (rd : Reg) (pos : Nat) (a : Arch c) : Except FaultCause (Arch c) :=
  if !flipAllowed (a.reg rd).st then .error .sequence
  else if pos < 1 ∨ (a.reg rd).length < pos then .error .range
  else .ok (a.setReg rd (flippedReg (a.reg rd) pos))

/-- FLIP rd, pos (R120). -/
def execFlip (rd : Reg) (pos : Nat) (s : State) : Host.Outcome State Fault Refusal :=
  s.transact (flip rd pos s.arch)

/-- The pseudocode of CLONE (R121): the triple of `rs` is copied to `rd`, in every lifecycle state. -/
def clone (rd rs : Reg) (a : Arch c) : Except FaultCause (Arch c) :=
  .ok (a.setReg rd (a.reg rs))

/-- CLONE rd, rs (R121). -/
def execClone (rd rs : Reg) (s : State) : Host.Outcome State Fault Refusal :=
  s.transact (clone rd rs s.arch)

end Sys2Proof.Machine
end

