-- ==== Sys2Proof/Machine/Dispatch.lean ====
section
/-! DEFINITION. The meaning of every command: one arm for each constructor of Instr. -/

namespace Sys2Proof.Machine

/-- What a command does to the machine (41_encoder.md to 44_control.md). -/
def exec (i : Instr) (s : State) : Host.Outcome State Fault Refusal :=
  match i with
  | .loadi rd => Sys2Proof.Machine.execLoadi rd s
  | .loadb rd m => Sys2Proof.Machine.execLoadb rd m s
  | .loadc rd n => Sys2Proof.Machine.execLoadc rd n s
  | .space rd => Sys2Proof.Machine.execSpace rd s
  | .populate rd => Sys2Proof.Machine.execPopulate rd s
  | .flip rd pos => Sys2Proof.Machine.execFlip rd pos s
  | .syndrome rd => Sys2Proof.Machine.execSyndrome rd s
  | .clone rd rs => Sys2Proof.Machine.execClone rd rs s
  | .clrerr => Sys2Proof.Machine.execClrerr s

end Sys2Proof.Machine
end

