-- ==== Sys2Proof/Machine/Sequencer.lean ====
section
/-! DEFINITION. One step of the machine: the next sample of the input ports, and what it does. -/

namespace Sys2Proof.Machine

/-- The transaction at the ports: `rst` asserted is the reset event and cancels it (70_reset_and_hazards.md R180, R181);
otherwise the command word is decoded, and it runs or faults with ILLEGAL (30_encoding.md R70). -/
def runPort (s : State) : Host.Outcome State Fault Refusal :=
  if s.port.rst then .next s.resetEvent
  else
    match decode s.port.cmd with
    | .command i => exec i s
    | .illegal => s.illegalWord

/-- The host's next sample is taken and run. With none presented the block is idle and nothing changes (R180, R186;
DESIGN CHOICE, log 3). -/
def presentNext (s : State) : Host.Outcome State Fault Refusal :=
  match s.queue with
  | [] => .next s
  | p :: rest => runPort (s.sample p rest)

end Sys2Proof.Machine
end

