-- ==== Sys2Proof/Machine/Step.lean ====
section
/-! DEFINITION. The step of the machine under the host's name, and the placing of a word where it is fetched next. -/

namespace Sys2Proof.Machine

/-- One step: one host transaction, or one reset event (00_scope.md R4, 70_reset_and_hazards.md R180). -/
def step (s : State) : Host.Outcome State Fault Refusal := presentNext s

/-- The machine whose next step presents the command word `w` (DESIGN CHOICE, log 4: with din = 0, before the samples
already queued). -/
def State.withFetchWord (s : State) (nbits w : Nat) : State := s.stageWord (tableWord nbits w)

end Sys2Proof.Machine
end

