-- ==== Sys2Proof/Machine/Assembler.lean ====
section
/-! DEFINITION. The assembler syntax of 30_encoding.md section 4: how the host writes transactions down. No step of the
machine uses it. Text is a list of characters. -/

namespace Sys2Proof.Machine

/-- One line of source: a command and the value written after `=`, if any (R73). -/
structure AsmLine where
  instr : Instr
  din : Option Nat
  deriving DecidableEq, Repr

/-- A line, or a pseudo-instruction (R75, R76). -/
inductive AsmSource
  | line (l : AsmLine)
  | encode (rd : Reg) (v : Nat)
  | encodeb (rd : Reg) (m v : Nat)
  deriving DecidableEq, Repr

/-- The assembler refuses an operand out of its field's range, a din of `2^N_MAX` or more, and a din on a command that
is no load (R73). -/
def asmAccepts (c : Config) (l : AsmLine) : Bool :=
  l.instr.wellFormed &&
    match l.din with
    | none => true
    | some v => l.instr.readsDin && decide (v < 2 ^ c.nMax)

/-- The transaction of an accepted line; an omitted din is 0 (R73). -/
def assembleLine (c : Config) (l : AsmLine) : Option (PortSample c) :=
  if asmAccepts c l then some ⟨encode l.instr, BitVec.ofNat c.nMax (l.din.getD 0), false⟩ else none

/-- The commands a source line stands for: ENCODE and ENCODEB are a load, SPACE, POPULATE (R75, R76). -/
def expandSource : AsmSource → List AsmLine
  | .line l => [l]
  | .encode rd v => [⟨.loadi rd, some v⟩, ⟨.space rd, none⟩, ⟨.populate rd, none⟩]
  | .encodeb rd m v => [⟨.loadb rd m, some v⟩, ⟨.space rd, none⟩, ⟨.populate rd, none⟩]

/-- Lines assembled in order; one refused line refuses all. -/
def assembleLines (c : Config) : List AsmLine → Option (List (PortSample c))
  | [] => some []
  | l :: ls =>
    match assembleLine c l, assembleLines c ls with
    | some p, some ps => some (p :: ps)
    | _, _ => none

/-- The transactions of a source line (R73, R75, R76). -/
def assembleSource (c : Config) (src : AsmSource) : Option (List (PortSample c)) := assembleLines c (expandSource src)

/-- A blank between tokens (DESIGN CHOICE, log 9: a space or a tab). -/
def isBlank (ch : Char) : Bool := ch == ' ' || ch == '\t'

/-- Text without the blanks at its two ends. -/
def trimText (cs : List Char) : List Char := ((cs.dropWhile isBlank).reverse.dropWhile isBlank).reverse

/-- Text cut at its commas. -/
def splitAtCommas : List Char → List (List Char)
  | [] => [[]]
  | ch :: cs =>
    if ch == ',' then [] :: splitAtCommas cs
    else
      match splitAtCommas cs with
      | part :: parts => (ch :: part) :: parts
      | [] => [[ch]]

/-- The value of a digit character; hexadecimal letters in either case (DESIGN CHOICE, log 9). -/
def digitValue (ch : Char) : Option Nat :=
  let n := ch.toNat
  if 48 ≤ n ∧ n ≤ 57 then some (n - 48)
  else if 65 ≤ n ∧ n ≤ 70 then some (n - 55)
  else if 97 ≤ n ∧ n ≤ 102 then some (n - 87)
  else none

/-- Digits of a base, most significant first, after the value read so far. -/
def digitsValue (base : Nat) (acc : Nat) : List Char → Option Nat
  | [] => some acc
  | ch :: cs =>
    match digitValue ch with
    | some d => if d < base then digitsValue base (base * acc + d) cs else none
    | none => none

/-- An unsigned numeral: decimal, or `0x` hexadecimal, or `0b` binary (00_scope.md R13). -/
def parseNumeral (cs : List Char) : Option Nat :=
  match cs with
  | [] => none
  | '0' :: 'x' :: d :: ds => digitsValue 16 0 (d :: ds)
  | '0' :: 'b' :: d :: ds => digitsValue 2 0 (d :: ds)
  | d :: ds => digitsValue 10 0 (d :: ds)

/-- An operand of R73: a register, a numeral, or a din value. -/
inductive AsmOperand
  | reg (r : Reg)
  | num (n : Nat)
  | din (v : Nat)
  deriving DecidableEq, Repr

/-- One operand's text (R73). -/
def parseOperand (cs : List Char) : Option AsmOperand :=
  match cs with
  | ['r', '0'] => some (.reg .r0)
  | ['r', '1'] => some (.reg .r1)
  | '=' :: ds => (parseNumeral ds).map .din
  | ds => (parseNumeral ds).map .num

/-- Operands in order; one that is none of R73's forms refuses all. -/
def parseOperands : List (List Char) → Option (List AsmOperand)
  | [] => some []
  | t :: ts =>
    match parseOperand (trimText t), parseOperands ts with
    | some o, some os => some (o :: os)
    | _, _ => none

/-- The operand order of R73 for the nine commands; an omitted din is `none`. Any other form is refused. -/
def commandLine (name : Mnemonic) (ops : List AsmOperand) : Option AsmSource :=
  match name, ops with
  | .LOADI, [.reg rd] => some (.line ⟨.loadi rd, none⟩)
  | .LOADI, [.reg rd, .din v] => some (.line ⟨.loadi rd, some v⟩)
  | .LOADB, [.reg rd, .num m] => some (.line ⟨.loadb rd m, none⟩)
  | .LOADB, [.reg rd, .num m, .din v] => some (.line ⟨.loadb rd m, some v⟩)
  | .LOADC, [.reg rd, .num n] => some (.line ⟨.loadc rd n, none⟩)
  | .LOADC, [.reg rd, .num n, .din v] => some (.line ⟨.loadc rd n, some v⟩)
  | .SPACE, [.reg rd] => some (.line ⟨.space rd, none⟩)
  | .POPULATE, [.reg rd] => some (.line ⟨.populate rd, none⟩)
  | .FLIP, [.reg rd, .num pos] => some (.line ⟨.flip rd pos, none⟩)
  | .SYNDROME, [.reg rd] => some (.line ⟨.syndrome rd, none⟩)
  | .CLONE, [.reg rd, .reg rs] => some (.line ⟨.clone rd rs, none⟩)
  | .CLRERR, [] => some (.line ⟨.clrerr, none⟩)
  | _, _ => none

/-- A mnemonic in capitals (R73). -/
def mnemonicOf (name : List Char) : Option Mnemonic :=
  match name with
  | ['L', 'O', 'A', 'D', 'I'] => some .LOADI
  | ['L', 'O', 'A', 'D', 'B'] => some .LOADB
  | ['L', 'O', 'A', 'D', 'C'] => some .LOADC
  | ['S', 'P', 'A', 'C', 'E'] => some .SPACE
  | ['P', 'O', 'P', 'U', 'L', 'A', 'T', 'E'] => some .POPULATE
  | ['F', 'L', 'I', 'P'] => some .FLIP
  | ['S', 'Y', 'N', 'D', 'R', 'O', 'M', 'E'] => some .SYNDROME
  | ['C', 'L', 'O', 'N', 'E'] => some .CLONE
  | ['C', 'L', 'R', 'E', 'R', 'R'] => some .CLRERR
  | _ => none

/-- A source line of a given name in capitals: a command, or one of the two pseudo-instructions (R73, R75, R76). -/
def sourceOf (name : List Char) (ops : List AsmOperand) : Option AsmSource :=
  match name, ops with
  | ['E', 'N', 'C', 'O', 'D', 'E'], [.reg rd, .din v] => some (.encode rd v)
  | ['E', 'N', 'C', 'O', 'D', 'E', 'B'], [.reg rd, .num m, .din v] => some (.encodeb rd m v)
  | _, _ =>
    match mnemonicOf name with
    | some n => commandLine n ops
    | none => none

/-- A line of text: `<mnemonic> [<operand> {, <operand>}] [, =<din>] [; comment]`, the mnemonic in either case (R73);
the names ENCODE and ENCODEB in either case too (DESIGN CHOICE, log 9: R75 and R76 do not say). -/
def parseSource (cs : List Char) : Option AsmSource :=
  let body := trimText (cs.takeWhile (· != ';'))
  let name := (body.takeWhile fun ch => !isBlank ch).map Char.toUpper
  let rest := trimText (body.dropWhile fun ch => !isBlank ch)
  match parseOperands (if rest.isEmpty then [] else splitAtCommas rest) with
  | some ops => sourceOf name ops
  | none => none

/-- The transactions of a line of text (R73). -/
def assembleText (c : Config) (cs : List Char) : Option (List (PortSample c)) :=
  match parseSource cs with
  | some src => assembleSource c src
  | none => none

/-- The din column of a listing: a hexadecimal numeral, or `-` for 0 (R74). A column without `0x`, of which R74 does not
speak, is read as any numeral of R13, decimal or `0b` (DESIGN CHOICE, log 9). `-` is 0 whatever the command. -/
def parseListingDin (cs : List Char) : Option Nat :=
  match cs with
  | ['-'] => some 0
  | ds => parseNumeral ds

/-- A line of a program listing: the command word, the din value, and the assembler text, which is not read here (R74).
It gives the transaction; a word above 16 bits or a din above N_MAX bits is refused. The word column too is read as any
numeral of R13: with `0x` as R74 has it, or decimal or `0b` (DESIGN CHOICE, log 9). -/
def parseListing (c : Config) (cs : List Char) : Option (PortSample c) :=
  let body := trimText cs
  let word := body.takeWhile fun ch => !isBlank ch
  let din := (trimText (body.dropWhile fun ch => !isBlank ch)).takeWhile fun ch => !isBlank ch
  match parseNumeral word, parseListingDin din with
  | some w, some v => if w < 2 ^ 16 ∧ v < 2 ^ c.nMax then some ⟨BitVec.ofNat 16 w, BitVec.ofNat c.nMax v, false⟩ else none
  | _, _ => none

end Sys2Proof.Machine
end

