-- ==== Sys2Proof/Machine/Ports.lean ====
section
/-! DEFINITION. The output ports of 20_memory.md section 2: combinational functions of the architectural state. Reading
one changes nothing (R54), since it is no step of the machine. -/

namespace Sys2Proof.Machine

/-- The codeword of a register as the Bit sequence `CW[r][1..LEN[r]]` (R44). -/
def CodewordReg.sequence (x : CodewordReg c) : List Bit := (positions x.length).map x.bit

/-- `CWOUT_r`: the codeword read as an unsigned integer, position 1 most significant, zero-extended to N_MAX bits
(R44). -/
def CodewordReg.cwout (x : CodewordReg c) : BitVec c.nMax := BitVec.ofNat c.nMax (intOf x.sequence)

/-- The output ports (R42). -/
structure OutputPorts (c : Config) where
  cwout0 : BitVec c.nMax
  cwout1 : BitVec c.nMax
  len0 : BitVec 7
  len1 : BitVec 7
  st0 : BitVec 2
  st1 : BitVec 2
  syn : BitVec c.sw
  status : BitVec 8
  ecmd : BitVec 16
  errO : Bit
  deriving DecidableEq, Repr

/-- The value of every output port in a state (R44 to R47). -/
def Arch.outputs (a : Arch c) : OutputPorts c where
  cwout0 := a.r0.cwout
  cwout1 := a.r1.cwout
  len0 := a.r0.len
  len1 := a.r1.len
  st0 := lifecycleCode a.r0.st
  st1 := lifecycleCode a.r1.st
  syn := a.syn
  status := statusWord a.status
  ecmd := a.ecmd
  errO := a.status.err

end Sys2Proof.Machine
end

