-- ==== Sys2Proof/Machine/Transaction.lean ====
section
/-! DEFINITION. The step function of 00_scope.md R4, `Step(S, w, din) -> S'`, for ANY configuration: the same
pseudocode as the machine's meanings, over the architectural state alone. -/

namespace Sys2Proof.Machine

/-- The pseudocode of a command (41_encoder.md to 44_control.md), in any configuration. -/
def perform (i : Instr) (din : BitVec c.nMax) (a : Arch c) : Except FaultCause (Arch c) :=
  match i with
  | .loadi rd => loadi rd din a
  | .loadb rd m => loadb rd m din a
  | .loadc rd n => loadc rd n din a
  | .space rd => space rd a
  | .populate rd => populate rd a
  | .flip rd pos => flip rd pos a
  | .syndrome rd => syndrome rd a
  | .clone rd rs => clone rd rs a
  | .clrerr => clrerr a

/-- `Step(S, w, din)` (00_scope.md R4, 20_memory.md R43): total and deterministic. -/
def Arch.step (a : Arch c) (w : CommandWord) (din : BitVec c.nMax) : Arch c :=
  match decode w with
  | .command i => a.commit w (perform i din a)
  | .illegal => a.raiseFault w .illegal

/-- What one sample of the ports does: reset, or one transaction (20_memory.md R41, 70_reset_and_hazards.md R180). -/
def Arch.present (a : Arch c) (p : PortSample c) : Arch c :=
  if p.rst then Arch.reset c else a.step p.cmd p.din

/-- The state after a sequence of samples, one after another (20_memory.md R51). -/
def Arch.presentAll (a : Arch c) (ps : List (PortSample c)) : Arch c := ps.foldl Arch.present a

end Sys2Proof.Machine
end

