-- ==== Sys2Proof/Safety.lean ====
section
/-! DEFINITION. What the claims speak of: the states every command keeps (10_state.md R25, R26 and the rules of the
status register), clean codewords, refused transactions, and runs without a fault. -/

namespace Sys2Proof.Machine

/-- The lengths and parity slots of a codeword register as 10_state.md R25 and R26 give them. -/
structure CodewordReg.WF (x : CodewordReg c) : Prop where
  zero_above : ∀ i, x.length < i → x.bit i = false
  empty_iff : x.st = .empty ↔ x.length = 0
  payload_length : x.st = .payload → 1 ≤ x.length ∧ x.length ≤ c.mMax
  spaced_length : x.st = .spaced → ∃ m, 1 ≤ m ∧ m ≤ c.mMax ∧ x.length = m + kreq m
  spaced_slots : x.st = .spaced → ∀ p ∈ ppos x.length, x.bit p = false
  populated_length : x.st = .populated → 1 ≤ x.length ∧ x.length ≤ c.nMax

/-- The fields of STATUS agree with one another, with SYN and with ECMD: CAUSE and ECMD are 0 exactly as 10_state.md R31,
R32 and R35 say; SZ is 1 when SYN is 0 after a SYNDROME (R33); SZ and SOOR never stand together (43_decoder.md R132). -/
structure Arch.StatusWF (a : Arch c) : Prop where
  cause_of_err : a.status.err = true → a.status.cause.isSome = true
  cause_of_no_err : a.status.err = false → a.status.cause = none
  ecmd_of_no_err : a.status.err = false → a.ecmd = 0
  sz_of_sv : a.status.sv = true → a.status.sz = decide (a.syn = 0)
  soor_sz : ¬(a.status.sz = true ∧ a.status.soor = true)
  flags_of_no_sv : a.status.sv = false → a.syn = 0 ∧ a.status.sz = false ∧ a.status.soor = false

/-- The invariant of the block, in any configuration. -/
structure Arch.Inv (a : Arch c) : Prop where
  r0_wf : a.r0.WF
  r1_wf : a.r1.WF
  status_wf : a.StatusWF

/-- The invariant of the machine: nothing is asked of the input ports or of what the host will present. -/
def State.Inv (s : State) : Prop := s.arch.Inv

/-- A register holds a clean codeword: POPULATED, with every recomputed parity bit 0 (41_encoder.md R104). -/
def CodewordReg.Clean (x : CodewordReg c) : Prop :=
  x.st = .populated ∧ ∀ b ∈ parityVec x.bit x.length, b = false

/-- `a'` is `a` after a transaction on the command word `w` that was refused with cause `f`, as 60_exceptions.md R155
writes it down: only a fault with ERR = 0 changes anything, and only ERR, CAUSE and ECMD. -/
def Arch.RefusedWith (a : Arch c) (w : CommandWord) (f : FaultCause) (a' : Arch c) : Prop :=
  a'.r0 = a.r0 ∧ a'.r1 = a.r1 ∧ a'.syn = a.syn ∧
  a'.status.sv = a.status.sv ∧ a'.status.sz = a.status.sz ∧ a'.status.soor = a.status.soor ∧
  (a.status.err = false → a'.status.err = true ∧ a'.status.cause = some f ∧ a'.ecmd = w) ∧
  (a.status.err = true → a'.status.err = true ∧ a'.status.cause = a.status.cause ∧ a'.ecmd = a.ecmd)

/-- The command `i` is refused with cause `f` in state `s`: the machine goes on to a next state with the fault taken and
the rest of the machine as it was. -/
def State.Refuses (s : State) (i : Instr) (f : FaultCause) : Prop :=
  ∃ t, exec i s = .next t ∧ s.arch.RefusedWith s.port.cmd f t.arch ∧ t.port = s.port ∧ t.queue = s.queue

/-- A codeword register holds the sequence `f 1, ..., f L` in lifecycle state `st`, and 0 above it (10_state.md R22 to
R25). -/
def CodewordReg.Holds (x : CodewordReg c) (L : Nat) (f : Nat → Bit) (st : Lifecycle) : Prop :=
  x.length = L ∧ x.st = st ∧ (∀ i, 1 ≤ i → i ≤ L → x.bit i = f i) ∧ ∀ i, L < i → x.bit i = false

/-- From `s` to `t` nothing changes but codeword register `rd`: the frame of a command that writes one register. -/
def State.OnlyRegChanges (s t : State) (rd : Reg) : Prop :=
  (∀ r, r ≠ rd → t.arch.reg r = s.arch.reg r) ∧ t.arch.syn = s.arch.syn ∧ t.arch.status = s.arch.status ∧
    t.arch.ecmd = s.arch.ecmd ∧ t.port = s.port ∧ t.queue = s.queue

/-- The codeword register a command may write (41_encoder.md to 44_control.md). -/
def destinationOf : Instr → Option Reg
  | .loadi rd => some rd
  | .loadb rd _ => some rd
  | .loadc rd _ => some rd
  | .space rd => some rd
  | .populate rd => some rd
  | .flip rd _ => some rd
  | .syndrome _ => none
  | .clone rd _ => some rd
  | .clrerr => none

/-- No fault since the last clear: what a host that stops at the first error asks after each transaction
(60_exceptions.md R160). -/
def State.FaultFree (s : State) : Prop := s.arch.status.err = false

end Sys2Proof.Machine
end

