-- ==== Sys2Proof/Certificates/Slice0/Obligations.lean ====
section
/-! DEFINITION. The statements about the model, for the provers. R<n> is a numbered rule of spec/. -/

open Sys2Proof Sys2Proof.Machine

/-! ### Encoding -/

/-- Words written out from the patterns of R60 to R68 decode to the commands they stand for; opcode 0, a nonzero Z and a
nonzero unused field are ILLEGAL. -/
def Obligations.DecodeOfWrittenWords : Prop :=
  decode 0b0001100000000000 = .command (.loadi .r1) ∧
  decode 0b0010000001111111 = .command (.loadb .r0 127) ∧
  decode 0b0011100001000111 = .command (.loadc .r1 71) ∧
  decode 0b0100100000000000 = .command (.space .r1) ∧
  decode 0b0101000000000000 = .command (.populate .r0) ∧
  decode 0b0110100000000011 = .command (.flip .r1 3) ∧
  decode 0b0111100000000000 = .command (.syndrome .r1) ∧
  decode 0b1000100000000000 = .command (.clone .r1 .r0) ∧
  decode 0b1000010000000000 = .command (.clone .r0 .r1) ∧
  decode 0b1001000000000000 = .command .clrerr ∧
  decode 0b0000000000000000 = .illegal ∧
  decode 0b0110000010000000 = .illegal ∧
  decode 0b0100110000000000 = .illegal

/-- R70 with the rows of R60 to R68: a word is a command exactly if `(w & mask) = match` for its row, and then RD is bit
11, RS bit 10 and IMM bits 6:0. -/
def Obligations.DecodeFollowsOpcodeMap : Prop :=
  ∀ (w : CommandWord) (i : Instr),
    decode w = .command i ↔
      (w &&& 0xF7FF = 0x1000 ∧ i = .loadi (regOfBit (w.getLsbD 11))) ∨
      (w &&& 0xF780 = 0x2000 ∧ i = .loadb (regOfBit (w.getLsbD 11)) (w &&& 0x7F).toNat) ∨
      (w &&& 0xF780 = 0x3000 ∧ i = .loadc (regOfBit (w.getLsbD 11)) (w &&& 0x7F).toNat) ∨
      (w &&& 0xF7FF = 0x4000 ∧ i = .space (regOfBit (w.getLsbD 11))) ∨
      (w &&& 0xF7FF = 0x5000 ∧ i = .populate (regOfBit (w.getLsbD 11))) ∨
      (w &&& 0xF780 = 0x6000 ∧ i = .flip (regOfBit (w.getLsbD 11)) (w &&& 0x7F).toNat) ∨
      (w &&& 0xF7FF = 0x7000 ∧ i = .syndrome (regOfBit (w.getLsbD 11))) ∨
      (w &&& 0xF3FF = 0x8000 ∧ i = .clone (regOfBit (w.getLsbD 11)) (regOfBit (w.getLsbD 10))) ∨
      (w &&& 0xFFFF = 0x9000 ∧ i = .clrerr)

/-- Every well-formed command is read back from its word, with every operand at every value its field admits. -/
def Obligations.DecodeOfEncode : Prop :=
  ∀ i : Instr, i.wellFormed = true → decode (encode i) = .command i

/-- A legal word is the word of the command it decodes to, and that command is well formed: no bit of a legal word is
dropped. -/
def Obligations.EncodeOfDecode : Prop :=
  ∀ (w : CommandWord) (i : Instr), decode w = .command i → encode i = w ∧ i.wellFormed = true

/-- R152: the words that raise ILLEGAL are those `decode` calls ILLEGAL, and they are these, by opcode, Z field and unused
fields; in every configuration, from every state. -/
def Obligations.IllegalWords : Prop :=
  (∀ (c : Config) (a : Arch c) (w : CommandWord) (din : BitVec c.nMax),
    decode w = .illegal → a.RefusedWith w .illegal (a.step w din)) ∧
  ∀ w : CommandWord,
    decode w = .illegal ↔
      opcOf w = 0x0 ∨ 0xA#4 ≤ opcOf w ∨
      zOf w ≠ 0 ∨
      (immOf w ≠ 0 ∧ opcOf w ∈ [0x1#4, 0x4#4, 0x5#4, 0x7#4, 0x8#4, 0x9#4]) ∨
      (rsOf w = .r1 ∧ opcOf w ≠ 0x8) ∨
      (rdOf w = .r1 ∧ opcOf w = 0x9)

/-- R72: 781 words are legal, 64755 are illegal, and these are the numbers of legal words of each opcode, 0x0 to 0xF. -/
def Obligations.LegalWordCount : Prop :=
  ∃ legal illegal : List CommandWord,
    legal.Nodup ∧ legal.length = 781 ∧ (∀ w, w ∈ legal ↔ decode w ≠ .illegal) ∧
    illegal.Nodup ∧ illegal.length = 64755 ∧ (∀ w, w ∈ illegal ↔ decode w = .illegal) ∧
    (List.range 16).map (fun k => legal.countP fun w => (opcOf w).toNat == k) =
      [0, 2, 256, 256, 2, 2, 256, 2, 4, 1, 0, 0, 0, 0, 0, 0]

/-- R73: a line the assembler accepts gives one transaction whose word decodes to the line's command and whose din is
the value written, or 0 where none is. -/
def Obligations.AssembledLineDecodes : Prop :=
  ∀ (c : Config) (l : AsmLine) (p : PortSample c),
    assembleLine c l = some p →
      decode p.cmd = .command l.instr ∧ p.din.toNat = l.din.getD 0 ∧ p.rst = false

/-! ### Steps, reset and runs

That the ports and the queue of samples stand in State, and that a step takes the oldest sample, is the model's choice
(DESIGN CHOICE, log 2) in every statement that speaks of them. -/

/-- A step samples the oldest queued transaction (log 2) and runs the command its word decodes to. -/
def Obligations.StepRunsDecodedCommand : Prop :=
  ∀ (s : State) (p : PortSample Config.reference) (rest : List (PortSample Config.reference)) (i : Instr),
    s.queue = p :: rest → p.rst = false → decode p.cmd = .command i →
      step s = exec i { s with port := p, queue := rest }

/-- R156, first rank: a step on an illegal word faults with ILLEGAL, whatever the registers hold. The
queue is log 2. -/
def Obligations.StepRefusesIllegalWord : Prop :=
  ∀ (s : State) (p : PortSample Config.reference) (rest : List (PortSample Config.reference)),
    s.queue = p :: rest → p.rst = false → decode p.cmd = .illegal →
      ∃ t, step s = .next t ∧ s.arch.RefusedWith p.cmd .illegal t.arch ∧ t.port = p ∧ t.queue = rest

/-- Read from R180 and R181 (DEDUCED, log 11, with log 2 for the ports and the queue): a sample with `rst` asserted leaves
the architectural state at reset, whatever it was before; its own transaction is the one cancelled, and the later samples
come next. -/
def Obligations.ResetEventClearsAll : Prop :=
  ∀ (s : State) (p : PortSample Config.reference) (rest : List (PortSample Config.reference)),
    s.queue = p :: rest → p.rst = true →
      step s = .next { arch := Arch.reset Config.reference, port := p, queue := rest }

/-- The model's choice (log 3), from R180's "the block is idle, waiting for its first transaction": with no transaction
presented a step changes nothing. -/
def Obligations.IdleStepChangesNothing : Prop :=
  ∀ s : State, s.queue = [] → step s = .next s

/-- A word placed by `withFetchWord` is the transaction of the very next step, with din = 0 (the model's choice, log
4). -/
def Obligations.PlacedWordIsRunNext : Prop :=
  ∀ (s : State) (w : Nat) (i : Instr),
    w < 2 ^ 16 → decodeTableWord 16 w = some i →
      step (s.withFetchWord 16 w) = exec i { s with port := ⟨BitVec.ofNat 16 w, 0#_, false⟩ }

/-- R4: a step is one transaction; its effect on the architectural state is the function `Step(S, w, din)` and it never
stops. The ports and the queue are log 2. -/
def Obligations.StepIsOneTransaction : Prop :=
  ∀ (s : State) (p : PortSample Config.reference) (rest : List (PortSample Config.reference)),
    s.queue = p :: rest → p.rst = false →
      step s = .next { arch := s.arch.step p.cmd p.din, port := p, queue := rest }

/-- R51: the state after a sequence of transactions is `Step` applied to them one after another. That they
stand in the queue, and that the rest of it is left, is the model's choice (log 2). -/
def Obligations.RunAppliesStepInOrder : Prop :=
  ∀ (s : State) (ps rest : List (PortSample Config.reference)),
    (∀ p ∈ ps, p.rst = false) →
      ∃ t, core.run ps.length { s with queue := ps ++ rest } = .next t ∧
        t.arch = ps.foldl (fun a p => a.step p.cmd p.din) s.arch ∧ t.queue = rest

/-- R39: the value of every state element after reset. -/
def Obligations.ResetValues : Prop :=
  (∀ i, 1 ≤ i → i ≤ Config.reference.nMax → State.reset.arch.r0.bit i = false ∧ State.reset.arch.r1.bit i = false) ∧
  State.reset.arch.r0.len = 0 ∧ State.reset.arch.r1.len = 0 ∧
  lifecycleCode State.reset.arch.r0.st = 0 ∧ lifecycleCode State.reset.arch.r1.st = 0 ∧
  State.reset.arch.syn = 0 ∧ State.reset.arch.status.err = false ∧ causeCode State.reset.arch.status.cause = 0 ∧
  State.reset.arch.status.sv = false ∧ State.reset.arch.status.sz = false ∧ State.reset.arch.status.soor = false ∧
  statusWord State.reset.arch.status = 0x00 ∧ State.reset.arch.ecmd = 0

/-- The invariant of R25, R26 and the status rules holds right after reset. -/
def Obligations.ResetMeetsInvariant : Prop := State.reset.Inv

/-- From every state that meets the invariant, one step leads to a state that meets it. -/
def Obligations.StepKeepsInvariant : Prop :=
  ∀ s t : State, s.Inv → step s = .next t → t.Inv

/-- The same for the block at every M_MAX from 1 to 120: a reset, a command word of any value and any din keep the
invariant. -/
def Obligations.EveryConfigurationKeepsInvariant : Prop :=
  ∀ (c : Config) (a : Arch c) (p : PortSample c), a.Inv → (a.present p).Inv

/-! ### What each command does -/

/-- R100: LOADI loads din at its minimal width, or faults with LENGTH when that width exceeds M_MAX. -/
def Obligations.LoadiLoadsMinimalWidth : Prop :=
  ∀ (rd : Reg) (s : State),
    (mw s.port.din.toNat ≤ Config.reference.mMax →
      ∃ t, exec (.loadi rd) s = .next t ∧
        (t.arch.reg rd).Holds (mw s.port.din.toNat)
          (fun i => s.port.din.getLsbD (mw s.port.din.toNat - i)) .payload ∧
        s.OnlyRegChanges t rd) ∧
    (Config.reference.mMax < mw s.port.din.toNat → s.Refuses (.loadi rd) .length)

/-- R101: LOADB loads the `m` low bits of din, or faults with LENGTH when `m` is 0 or above M_MAX, or din has a 1 at or
above bit `m`. -/
def Obligations.LoadbLoadsExplicitLength : Prop :=
  ∀ (rd : Reg) (m : Nat) (s : State),
    (1 ≤ m → m ≤ Config.reference.mMax → s.port.din.toNat >>> m = 0 →
      ∃ t, exec (.loadb rd m) s = .next t ∧
        (t.arch.reg rd).Holds m (fun i => s.port.din.getLsbD (m - i)) .payload ∧
        s.OnlyRegChanges t rd) ∧
    (m < 1 ∨ Config.reference.mMax < m ∨ s.port.din.toNat >>> m ≠ 0 → s.Refuses (.loadb rd m) .length)

/-- R130: LOADC loads a received codeword of length `n`, or faults with LENGTH when `n` is 0 or above N_MAX, or din has a
1 at or above bit `n`. -/
def Obligations.LoadcLoadsReceivedCodeword : Prop :=
  ∀ (rd : Reg) (n : Nat) (s : State),
    (1 ≤ n → n ≤ Config.reference.nMax → s.port.din.toNat >>> n = 0 →
      ∃ t, exec (.loadc rd n) s = .next t ∧
        (t.arch.reg rd).Holds n (fun i => s.port.din.getLsbD (n - i)) .populated ∧
        s.OnlyRegChanges t rd) ∧
    (n < 1 ∨ Config.reference.nMax < n ∨ s.port.din.toNat >>> n ≠ 0 → s.Refuses (.loadc rd n) .length)

/-- R102: SPACE puts a 0 in each parity slot of the final length `m + kreq(m)` and payload bit `i - bitlen(i)` at each
data position `i`; it faults with SEQUENCE unless the register is PAYLOAD. -/
def Obligations.SpaceInsertsParitySlots : Prop :=
  ∀ (rd : Reg) (s : State),
    (s.Inv → (s.arch.reg rd).st = .payload →
      ∃ t, exec (.space rd) s = .next t ∧
        (t.arch.reg rd).Holds ((s.arch.reg rd).length + kreq (s.arch.reg rd).length)
          (fun i => if isPow2 i then false else (s.arch.reg rd).bit (i - bitlen i)) .spaced ∧
        s.OnlyRegChanges t rd) ∧
    ((s.arch.reg rd).st ≠ .payload → s.Refuses (.space rd) .sequence)

/-- R103: POPULATE writes `P[j]` at position `2^j` for each `j` below `bitlen(n)` and leaves the data positions and the
length; it faults with SEQUENCE unless the register is SPACED. -/
def Obligations.PopulateWritesParity : Prop :=
  ∀ (rd : Reg) (s : State),
    (s.Inv → (s.arch.reg rd).st = .spaced →
      ∃ t, exec (.populate rd) s = .next t ∧
        (∀ j, j < bitlen (s.arch.reg rd).length →
          (parityVec (s.arch.reg rd).bit (s.arch.reg rd).length)[j]? = some ((t.arch.reg rd).bit (2 ^ j))) ∧
        (∀ i, isPow2 i = false → (t.arch.reg rd).bit i = (s.arch.reg rd).bit i) ∧
        (∀ i, (s.arch.reg rd).length < i → (t.arch.reg rd).bit i = false) ∧
        (t.arch.reg rd).len = (s.arch.reg rd).len ∧ (t.arch.reg rd).st = .populated ∧
        s.OnlyRegChanges t rd) ∧
    ((s.arch.reg rd).st ≠ .spaced → s.Refuses (.populate rd) .sequence)

/-- R120: FLIP toggles the bit at `pos` and nothing else; SEQUENCE in EMPTY and SPACED, and otherwise RANGE when `pos` is
outside `[1, LEN]`. -/
def Obligations.FlipTogglesOneBit : Prop :=
  ∀ (rd : Reg) (pos : Nat) (s : State),
    (s.Inv → (s.arch.reg rd).st = .payload ∨ (s.arch.reg rd).st = .populated →
        1 ≤ pos → pos ≤ (s.arch.reg rd).length →
      ∃ t, exec (.flip rd pos) s = .next t ∧
        (t.arch.reg rd).bit pos = !(s.arch.reg rd).bit pos ∧
        (∀ i, i ≠ pos → (t.arch.reg rd).bit i = (s.arch.reg rd).bit i) ∧
        (t.arch.reg rd).len = (s.arch.reg rd).len ∧ (t.arch.reg rd).st = (s.arch.reg rd).st ∧
        s.OnlyRegChanges t rd) ∧
    ((s.arch.reg rd).st = .empty ∨ (s.arch.reg rd).st = .spaced → s.Refuses (.flip rd pos) .sequence) ∧
    ((s.arch.reg rd).st = .payload ∨ (s.arch.reg rd).st = .populated →
      pos < 1 ∨ (s.arch.reg rd).length < pos → s.Refuses (.flip rd pos) .range)

/-- R131: SYNDROME writes SYN, SV, SZ and SOOR from the register's codeword and leaves all else; it faults with SEQUENCE
unless the register is POPULATED. -/
def Obligations.SyndromeWritesSynAndFlags : Prop :=
  ∀ (rd : Reg) (s : State),
    (s.Inv → (s.arch.reg rd).st = .populated →
      ∃ t, exec (.syndrome rd) s = .next t ∧
        t.arch.syn.toNat = syndromeValue (s.arch.reg rd).bit (s.arch.reg rd).length ∧
        t.arch.status.sv = true ∧
        (t.arch.status.sz = true ↔ syndromeValue (s.arch.reg rd).bit (s.arch.reg rd).length = 0) ∧
        (t.arch.status.soor = true ↔
          (s.arch.reg rd).length < syndromeValue (s.arch.reg rd).bit (s.arch.reg rd).length) ∧
        t.arch.status.err = s.arch.status.err ∧ t.arch.status.cause = s.arch.status.cause ∧
        t.arch.ecmd = s.arch.ecmd ∧ t.arch.r0 = s.arch.r0 ∧ t.arch.r1 = s.arch.r1 ∧
        t.port = s.port ∧ t.queue = s.queue) ∧
    ((s.arch.reg rd).st ≠ .populated → s.Refuses (.syndrome rd) .sequence)

/-- R121: CLONE copies CW, LEN and ST of `rs` to `rd`, in every lifecycle state of either register, and never faults. -/
def Obligations.CloneCopiesRegister : Prop :=
  ∀ (rd rs : Reg) (s : State),
    ∃ t, exec (.clone rd rs) s = .next t ∧
      (t.arch.reg rd).cw = (s.arch.reg rs).cw ∧ (t.arch.reg rd).len = (s.arch.reg rs).len ∧
      (t.arch.reg rd).st = (s.arch.reg rs).st ∧ s.OnlyRegChanges t rd ∧ (rd = rs → t = s)

/-- R145: CLRERR clears ERR, CAUSE and ECMD and leaves all else. -/
def Obligations.ClrerrClearsErrorState : Prop :=
  ∀ s : State,
    ∃ t, exec .clrerr s = .next t ∧
      t.arch.status.err = false ∧ causeCode t.arch.status.cause = 0 ∧ t.arch.ecmd = 0 ∧
      t.arch.r0 = s.arch.r0 ∧ t.arch.r1 = s.arch.r1 ∧ t.arch.syn = s.arch.syn ∧
      t.arch.status.sv = s.arch.status.sv ∧ t.arch.status.sz = s.arch.status.sz ∧
      t.arch.status.soor = s.arch.status.soor ∧ t.port = s.port ∧ t.queue = s.queue

/-! ### Frames and faults -/

/-- The frame of all nine commands, faulting or not. A codeword register that is not the command's destination is
unchanged (SYNDROME and CLRERR have none); SYN, SV, SZ and SOOR are unchanged but by SYNDROME; once ERR is 1, ERR, CAUSE
and ECMD are unchanged but by CLRERR; the input ports and the host's queue are unchanged. -/
def Obligations.CommandFrame : Prop :=
  ∀ (i : Instr) (s t : State),
    exec i s = .next t →
      (∀ r, destinationOf i ≠ some r → t.arch.reg r = s.arch.reg r) ∧
      ((∀ rd, i ≠ .syndrome rd) →
        t.arch.syn = s.arch.syn ∧ t.arch.status.sv = s.arch.status.sv ∧ t.arch.status.sz = s.arch.status.sz ∧
          t.arch.status.soor = s.arch.status.soor) ∧
      (i ≠ .clrerr → s.arch.status.err = true →
        t.arch.status.err = true ∧ t.arch.status.cause = s.arch.status.cause ∧ t.arch.ecmd = s.arch.ecmd) ∧
      t.port = s.port ∧ t.queue = s.queue

/-- R155: a transaction that faults with cause `f`, by its word or by its command's pseudocode, changes STATUS and ECMD
only, and only when ERR was 0; in every configuration. And of the machine: a step that raises ERR is such a transaction,
with its word in ECMD. -/
def Obligations.FaultsArePrecise : Prop :=
  (∀ (c : Config) (a : Arch c) (w : CommandWord) (din : BitVec c.nMax) (f : FaultCause),
    (decode w = .illegal ∧ f = .illegal) ∨ (∃ i, decode w = .command i ∧ perform i din a = .error f) →
      a.RefusedWith w f (a.step w din)) ∧
  ∀ s t : State,
    step s = .next t → s.arch.status.err = false → t.arch.status.err = true →
      ∃ f, s.arch.RefusedWith t.port.cmd f t.arch

/-- R47: `err_o` equals STATUS.ERR, and stays 1 until CLRERR or reset. Where the sample stands
is log 2. -/
def Obligations.ErrStaysUntilCleared : Prop :=
  (∀ (c : Config) (a : Arch c), a.outputs.errO = a.status.err) ∧
  ∀ s t : State,
    step s = .next t → s.arch.outputs.errO = true → t.arch.outputs.errO = false →
      ∃ p rest, s.queue = p :: rest ∧ (p.rst = true ∨ p.cmd = 0x9000)

/-- R29 and R33: only SYNDROME (or reset) writes SYN, SV, SZ and SOOR. Where the sample stands is log 2. -/
def Obligations.OnlySyndromeWritesSyn : Prop :=
  ∀ s t : State,
    step s = .next t →
      (t.arch.syn ≠ s.arch.syn ∨ t.arch.status.sv ≠ s.arch.status.sv ∨ t.arch.status.sz ≠ s.arch.status.sz ∨
        t.arch.status.soor ≠ s.arch.status.soor) →
      ∃ p rest, s.queue = p :: rest ∧ (p.rst = true ∨ p.cmd = 0x7000 ∨ p.cmd = 0x7800)

/-- R153: a command raises SEQUENCE exactly in the lifecycle states its row of the table does not allow. -/
def Obligations.SequenceConditions : Prop :=
  ∀ (i : Instr) (s t : State),
    s.Inv → s.FaultFree → exec i s = .next t →
      (t.arch.status.cause = some .sequence ↔
        (∃ rd, i = .space rd ∧ (s.arch.reg rd).st ≠ .payload) ∨
        (∃ rd, i = .populate rd ∧ (s.arch.reg rd).st ≠ .spaced) ∨
        (∃ rd pos, i = .flip rd pos ∧ (s.arch.reg rd).st ≠ .payload ∧ (s.arch.reg rd).st ≠ .populated) ∨
        (∃ rd, i = .syndrome rd ∧ (s.arch.reg rd).st ≠ .populated))

/-- R154, under the priority of R156: FLIP alone raises RANGE and the three loads alone raise LENGTH, exactly on the
conditions of the rule. -/
def Obligations.RangeAndLengthConditions : Prop :=
  ∀ (i : Instr) (s t : State),
    s.Inv → s.FaultFree → exec i s = .next t →
      (t.arch.status.cause = some .range ↔
        ∃ rd pos, i = .flip rd pos ∧ ((s.arch.reg rd).st = .payload ∨ (s.arch.reg rd).st = .populated) ∧
          (pos = 0 ∨ (s.arch.reg rd).length < pos)) ∧
      (t.arch.status.cause = some .length ↔
        (∃ rd, i = .loadi rd ∧ Config.reference.mMax < mw s.port.din.toNat) ∨
        (∃ rd m, i = .loadb rd m ∧ (m = 0 ∨ Config.reference.mMax < m ∨ s.port.din.toNat >>> m ≠ 0)) ∨
        (∃ rd n, i = .loadc rd n ∧ (n = 0 ∨ Config.reference.nMax < n ∨ s.port.din.toNat >>> n ≠ 0)))

/-- R71: a word that is no load, legal or not, has the same effect with every value of din, in every configuration. -/
def Obligations.DinIgnoredExceptByLoads : Prop :=
  ∀ (c : Config) (a : Arch c) (w : CommandWord) (d₁ d₂ : BitVec c.nMax),
    (∀ i, decode w = .command i → i.readsDin = false) → a.step w d₁ = a.step w d₂

/-! ### The layout algebra -/

/-- R82: `bitlen(0) = 0`, and for `x >= 1` it is the unique `b` with `2^(b-1) <= x < 2^b`. With it, R17's minimal width:
`bitlen(v)`, and 1 for 0. -/
def Obligations.BitlenBrackets : Prop :=
  bitlen 0 = 0 ∧
  (∀ x b : Nat, 1 ≤ x → (bitlen x = b ↔ 1 ≤ b ∧ 2 ^ (b - 1) ≤ x ∧ x < 2 ^ b)) ∧
  mw 0 = 1 ∧ ∀ v : Nat, 1 ≤ v → mw v = bitlen v

/-- R83: `kreq(m)` is the smallest `k` with `2^k >= k + m + 1`. -/
def Obligations.KreqIsSmallest : Prop :=
  ∀ m k : Nat, kreq m = k ↔ k + m + 1 ≤ 2 ^ k ∧ ∀ j, j < k → 2 ^ j < j + m + 1

/-- R84: `is_pow2` is true exactly for the powers of two, 1 included. -/
def Obligations.PowerOfTwoTest : Prop :=
  ∀ i : Nat, isPow2 i = true ↔ ∃ k, i = 2 ^ k

/-- R85: `ppos(n)` is the ascending list of the powers of two in `[1, n]`, and has `bitlen(n)` elements. -/
def Obligations.ParityPositionsAreFilter : Prop :=
  ∀ n : Nat, ppos n = (positions n).filter isPow2 ∧ (ppos n).length = bitlen n

/-- R86: the two formulas for the parity positions agree for every payload length, and the encoded lengths are exactly
the `n >= 3` that are no power of two. -/
def Obligations.ParityFormulasAgree : Prop :=
  (∀ m : Nat, 1 ≤ m →
    bitlen (m + kreq m) = kreq m ∧ ppos (m + kreq m) = (List.range (kreq m)).map (2 ^ ·)) ∧
  ∀ n : Nat, (∃ m, 1 ≤ m ∧ n = m + kreq m) ↔ 3 ≤ n ∧ ∀ k, n ≠ 2 ^ k

/-- R87: `cover(p, n)` holds every position `i` of `[1, n]` with `(i & p) = p`, ascending; `cover(2^j, n)` every position
whose bit `j` is set, `2^j` among them. -/
def Obligations.CoverageGroups : Prop :=
  ∀ p n : Nat,
    (∀ i, i ∈ cover p n ↔ 1 ≤ i ∧ i ≤ n ∧ i &&& p = p) ∧ (cover p n).Pairwise (· < ·) ∧
    ∀ j, p = 2 ^ j →
      (∀ i, i ∈ cover p n ↔ 1 ≤ i ∧ i ≤ n ∧ i.testBit j = true) ∧ (p ≤ n → p ∈ cover p n)

/-- R88: a parity position is in its own group and in no other; a position is in the groups of its own binary digits, so
in at least one, and a data position in at least two. -/
def Obligations.CoverageProperties : Prop :=
  ∀ n : Nat,
    (∀ p ∈ ppos n, p ∈ cover p n) ∧
    (∀ p ∈ ppos n, ∀ q ∈ ppos n, p ≠ q → q ∉ cover p n) ∧
    (∀ i j, 1 ≤ i → i ≤ n → (i ∈ cover (2 ^ j) n ↔ i.testBit j = true)) ∧
    (∀ i, 1 ≤ i → i ≤ n → ∃ p ∈ ppos n, i ∈ cover p n) ∧
    (∀ i, 1 ≤ i → i ≤ n → isPow2 i = false →
      ∃ p ∈ ppos n, ∃ q ∈ ppos n, p ≠ q ∧ i ∈ cover p n ∧ i ∈ cover q n)

/-- R89 and R90: `parity_vec(c, n)` has one Bit for each parity position, ascending, the XOR over its group; the syndrome
value is the sum of `P_j * 2^j`, and is below `2^bitlen(n)`. -/
def Obligations.SyndromeIsWeightedSum : Prop :=
  ∀ (f : Nat → Bit) (n : Nat),
    (parityVec f n).length = bitlen n ∧
    (∀ j, j < bitlen n → (parityVec f n)[j]? = some (xorOver (cover (2 ^ j) n) f)) ∧
    syndromeValue f n =
      ((List.range (bitlen n)).map fun j => ((parityVec f n).getD j false).toNat * 2 ^ j).sum ∧
    syndromeValue f n < 2 ^ bitlen n

/-- R91: the syndrome is the XOR of the positions of the set bits. -/
def Obligations.SyndromeIsXorOfPositions : Prop :=
  ∀ (f : Nat → Bit) (n : Nat), syndromeValue f n = xorOfSetPositions f n

/-- R92: data position `i` holds payload bit `i - bitlen(i)`, the powers of two in `[1, i]` are `bitlen(i)` and none is
`i`, and `dpos` is the inverse map, ascending. -/
def Obligations.DataPositionMap : Prop :=
  (∀ i : Nat, 1 ≤ i → isPow2 i = false →
    1 ≤ i - bitlen i ∧ dpos (i - bitlen i) = i ∧ (ppos i).length = bitlen i ∧ i ∉ ppos i) ∧
  ∀ j : Nat, 1 ≤ j → isPow2 (dpos j) = false ∧ dpos j - bitlen (dpos j) = j ∧ dpos j < dpos (j + 1)

/-- R93: any XOR tree over the positions of a coverage group, in any order and shape, computes the parity bit. -/
def Obligations.AnyXorTreeGivesParity : Prop :=
  ∀ (f : Nat → Bit) (n p : Nat) (t : XorTree),
    (xorTreeLeaves t).Perm (cover p n) → xorTreeValue f t = parityOf f n p

/-- R16: `int` is the sum of `s[i] * 2^(L-i)`, `bits_L(v)[i]` is `v[L-i]`, and `int` decodes what `bits_L` encodes. -/
def Obligations.CodecRoundTrip : Prop :=
  (∀ s : List Bit,
    intOf s = ((List.range s.length).map fun i => (s.getD i false).toNat * 2 ^ (s.length - (i + 1))).sum) ∧
  ∀ L v : Nat, 1 ≤ L → v < 2 ^ L →
    (bitsOf L v).length = L ∧ (∀ i, 1 ≤ i → i ≤ L → (bitsOf L v)[i - 1]? = some (v.testBit (L - i))) ∧
    intOf (bitsOf L v) = v

/-- R10 and R19: in every configuration no length is cut down: `m + kreq(m)` is at most N_MAX, N_MAX is at most 127, and
SW is at most 7. -/
def Obligations.LengthsFitTheirRegisters : Prop :=
  ∀ c : Config,
    (∀ m, 1 ≤ m → m ≤ c.mMax → m + kreq m ≤ c.nMax) ∧ c.nMax ≤ 127 ∧ c.sw ≤ 7

/-! ### Ports -/

/-- R44: CWOUT is the codeword read as an integer, position 1 the most significant of the LEN bits. -/
def Obligations.CwoutReadsCodeword : Prop :=
  ∀ (c : Config) (x : CodewordReg c), x.WF →
    (∀ i, 1 ≤ i → i ≤ x.length → x.cwout.getLsbD (x.length - i) = x.bit i) ∧
    (∀ j, x.length ≤ j → x.cwout.getLsbD j = false)

/-- R25: CWOUT together with LEN determines the codeword register's bits completely. -/
def Obligations.CwoutAndLenDetermineCodeword : Prop :=
  ∀ (c : Config) (x y : CodewordReg c), x.WF → y.WF → x.len = y.len → x.cwout = y.cwout → x.cw = y.cw

/-- R48: CWOUT equals din right after a load that completes. -/
def Obligations.CwoutAfterLoadIsDin : Prop :=
  ∀ (rd : Reg) (s t : State),
    (mw s.port.din.toNat ≤ Config.reference.mMax → exec (.loadi rd) s = .next t →
      (t.arch.reg rd).cwout = s.port.din) ∧
    (∀ m, 1 ≤ m → m ≤ Config.reference.mMax → s.port.din.toNat < 2 ^ m → exec (.loadb rd m) s = .next t →
      (t.arch.reg rd).cwout = s.port.din) ∧
    (∀ n, 1 ≤ n → n ≤ Config.reference.nMax → s.port.din.toNat < 2 ^ n → exec (.loadc rd n) s = .next t →
      (t.arch.reg rd).cwout = s.port.din)

/-- R130, derived corner case: `LOADC rd, LEN[r], =CWOUT_r` reproduces a POPULATED register `r` exactly. -/
def Obligations.LoadcOfCwoutReproduces : Prop :=
  ∀ (rd r : Reg) (s : State),
    s.Inv → (s.arch.reg r).st = .populated → s.port.din = (s.arch.reg r).cwout →
      ∃ t, exec (.loadc rd (s.arch.reg r).length) s = .next t ∧ t.arch.reg rd = s.arch.reg r

/-- R101, derived corner case: `LOADB rd, mw(v), =v` has the effect of `LOADI rd, =v` for every `v < 2^M_MAX`. -/
def Obligations.LoadbAtMinimalWidthIsLoadi : Prop :=
  ∀ (rd : Reg) (s : State),
    s.port.din.toNat < 2 ^ Config.reference.mMax →
      exec (.loadb rd (mw s.port.din.toNat)) s = exec (.loadi rd) s

/-- R34 and R42 to R46: every output port shows its own register: `cwout_r` the codeword as an integer, position 1 most
significant, `len_r`, `st_r`, `syn`, `ecmd`, `err_o`, and STATUS with its fields at the bits of R30, bit 7 of it 0 in every
state. For the value of CWOUT, LEN is at most N_MAX, as R23 says (and `StepKeepsInvariant` keeps). -/
def Obligations.OutputPortLayout : Prop :=
  ∀ (c : Config) (a : Arch c),
    a.outputs.cwout0 = a.r0.cwout ∧ a.outputs.cwout1 = a.r1.cwout ∧
    (∀ r, (a.reg r).length ≤ c.nMax →
      (a.reg r).cwout.toNat =
        ((List.range (a.reg r).length).map fun i =>
          ((a.reg r).bit (i + 1)).toNat * 2 ^ ((a.reg r).length - (i + 1))).sum ∧
      ∀ i, 1 ≤ i → i ≤ (a.reg r).length → (a.reg r).bit i = (a.reg r).cwout.getLsbD ((a.reg r).length - i)) ∧
    a.outputs.errO = a.status.err ∧
    a.outputs.len0 = a.r0.len ∧ a.outputs.len1 = a.r1.len ∧
    a.outputs.st0 = lifecycleCode a.r0.st ∧ a.outputs.st1 = lifecycleCode a.r1.st ∧
    lifecycleCode .empty = 0 ∧ lifecycleCode .payload = 1 ∧ lifecycleCode .spaced = 2 ∧ lifecycleCode .populated = 3 ∧
    a.outputs.syn = a.syn ∧ a.outputs.ecmd = a.ecmd ∧
    a.outputs.status.getLsbD 0 = a.status.err ∧
    a.outputs.status.extractLsb' 1 3 = causeCode a.status.cause ∧
    a.outputs.status.getLsbD 4 = a.status.sv ∧ a.outputs.status.getLsbD 5 = a.status.sz ∧
    a.outputs.status.getLsbD 6 = a.status.soor ∧ a.outputs.status.getLsbD 7 = false ∧
    causeCode none = 0 ∧ causeCode (some .illegal) = 1 ∧ causeCode (some .range) = 2 ∧
    causeCode (some .length) = 3 ∧ causeCode (some .sequence) = 4

/-! ### Encoding, error location and correction -/

/-- R27: the payload length is derived: 0 in EMPTY, LEN in PAYLOAD, `LEN - bitlen(LEN)` in SPACED and POPULATED. SPACE and
then POPULATE keep it, and `bitlen(LEN)` is then `kreq` of it. -/
def Obligations.PayloadLengthIsDerived : Prop :=
  (∀ (c : Config) (x : CodewordReg c),
    (x.st = .empty → x.payloadLength = 0) ∧ (x.st = .payload → x.payloadLength = x.length) ∧
    (x.st = .spaced ∨ x.st = .populated → x.payloadLength = x.length - bitlen x.length)) ∧
  ∀ (rd : Reg) (s : State),
    s.Inv → (s.arch.reg rd).st = .payload →
      ∃ t u, exec (.space rd) s = .next t ∧ exec (.populate rd) t = .next u ∧
        (t.arch.reg rd).payloadLength = (s.arch.reg rd).payloadLength ∧
        (u.arch.reg rd).payloadLength = (s.arch.reg rd).payloadLength ∧
        bitlen (t.arch.reg rd).length = kreq (t.arch.reg rd).payloadLength ∧
        bitlen (u.arch.reg rd).length = kreq (u.arch.reg rd).payloadLength

/-- R105: the pseudo-instructions ENCODEB and ENCODE leave a POPULATED codeword of length `m + kreq(m)` with payload bit
`j` at `dpos(j)` and, at `2^t`, the XOR of the payload bits whose position has bit `t` set; in every configuration, from
every state. -/
def Obligations.EncoderFunction : Prop :=
  ∀ (c : Config) (a : Arch c) (rd : Reg) (m v : Nat) (src : AsmSource),
    (src = .encodeb rd m v ∧ 1 ≤ m ∧ m ≤ c.mMax ∧ v < 2 ^ m) ∨ (src = .encode rd v ∧ m = mw v ∧ m ≤ c.mMax) →
      ∃ ps, assembleSource c src = some ps ∧
        ((a.presentAll ps).reg rd).length = m + kreq m ∧
        ((a.presentAll ps).reg rd).st = .populated ∧
        (∀ j, 1 ≤ j → j ≤ m → ((a.presentAll ps).reg rd).bit (dpos j) = v.testBit (m - j)) ∧
        (∀ t, t < kreq m →
          ((a.presentAll ps).reg rd).bit (2 ^ t) =
            xorOver ((positions m).filter fun j => (dpos j).testBit t) fun j => v.testBit (m - j))

/-- R104: a register POPULATE has just written is clean, and a SYNDROME of it gives SYN = 0 and SZ = 1. -/
def Obligations.PopulatedCodewordIsClean : Prop :=
  ∀ (rd : Reg) (s t : State),
    s.Inv → (s.arch.reg rd).st = .spaced → exec (.populate rd) s = .next t →
      (∀ b ∈ parityVec (t.arch.reg rd).bit (t.arch.reg rd).length, b = false) ∧
      ∃ u, exec (.syndrome rd) t = .next u ∧ u.arch.syn = 0 ∧ u.arch.status.sz = true

/-- R133: a single flipped bit of a clean codeword is located exactly. -/
def Obligations.SingleErrorIsLocated : Prop :=
  ∀ (rd : Reg) (pos : Nat) (s : State),
    s.Inv → (s.arch.reg rd).Clean → 1 ≤ pos → pos ≤ (s.arch.reg rd).length →
      ∃ t u, exec (.flip rd pos) s = .next t ∧ exec (.syndrome rd) t = .next u ∧
        u.arch.syn.toNat = pos ∧ u.arch.status.sz = false ∧ u.arch.status.soor = false

/-- R134: after a single error the host's `FLIP rd, SYN` restores the codeword exactly, and a further SYNDROME gives SZ =
1. -/
def Obligations.HostCorrectionRestores : Prop :=
  ∀ (rd : Reg) (pos : Nat) (s t u : State),
    s.Inv → (s.arch.reg rd).Clean → 1 ≤ pos → pos ≤ (s.arch.reg rd).length →
    exec (.flip rd pos) s = .next t → exec (.syndrome rd) t = .next u →
      ∃ v w, exec (.flip rd u.arch.syn.toNat) u = .next v ∧ v.arch.reg rd = s.arch.reg rd ∧
        exec (.syndrome rd) v = .next w ∧ w.arch.status.sz = true

/-- R122: FLIP is an involution: where it does not fault, applying it twice gives the state back. -/
def Obligations.FlipTwiceRestoresState : Prop :=
  ∀ (rd : Reg) (pos : Nat) (s : State),
    (s.arch.reg rd).st = .payload ∨ (s.arch.reg rd).st = .populated → 1 ≤ pos → pos ≤ (s.arch.reg rd).length →
      ∃ t, exec (.flip rd pos) s = .next t ∧ exec (.flip rd pos) t = .next s

/-- R135: any sequence of FLIPs of a clean codeword, then a SYNDROME, gives the XOR of the positions, in every
configuration; and for two distinct positions it is never 0, so SZ is 0. -/
def Obligations.SeveralErrorsGiveXorOfPositions : Prop :=
  (∀ (c : Config) (a : Arch c) (rd : Reg) (ps : List Nat),
    a.Inv → (a.reg rd).Clean → (∀ p ∈ ps, 1 ≤ p ∧ p ≤ (a.reg rd).length) →
      (a.presentAll ((ps.map fun p => ⟨encode (.flip rd p), 0#_, false⟩) ++
        [⟨encode (.syndrome rd), 0#_, false⟩])).syn.toNat = ps.foldl (· ^^^ ·) 0) ∧
  ∀ (rd : Reg) (p q : Nat) (s : State),
    s.Inv → (s.arch.reg rd).Clean → 1 ≤ p → p ≤ (s.arch.reg rd).length →
    1 ≤ q → q ≤ (s.arch.reg rd).length → p ≠ q →
      ∃ t u v, exec (.flip rd p) s = .next t ∧ exec (.flip rd q) t = .next u ∧ exec (.syndrome rd) u = .next v ∧
        v.arch.syn.toNat = p ^^^ q ∧ v.arch.status.sz = false
end

