-- ==== Sys2Proof/Laws/Layout.lean ====
section
/-! SUPPORT. The spec lemmas of the layout algebra: one or two for each function of Machine/Layout.lean, which later
proofs cite instead of unfolding it. -/

namespace Sys2Proof.Machine

/-! ### Bit arrays -/

@[simp] theorem bitAt_zero (x : BitVec w) : bitAt x 0 = false := by simp [bitAt]

@[simp] theorem bitAt_succ (x : BitVec w) (i : Nat) : bitAt x (i + 1) = x.getLsbD i := by simp [bitAt]

theorem bitAt_above (x : BitVec w) (h : w < i) : bitAt x i = false := by
  obtain _ | i := i
  · simp
  · simp only [bitAt_succ]; exact BitVec.getLsbD_of_ge x i (by omega)

theorem getLsbD_ofPositions (w : Nat) (f : Nat → Bit) (i : Nat) :
    (ofPositions w f).getLsbD i = (decide (i < w) && f (i + 1)) := by
  induction w with
  | zero => simp [ofPositions]
  | succ w ih =>
    rw [ofPositions, BitVec.getLsbD_cons, ih]
    by_cases hi : i = w
    · simp [hi]
    · have : i < w + 1 ↔ i < w := by omega
      simp [hi, this]

theorem bitAt_ofPositions (w : Nat) (f : Nat → Bit) (i : Nat) :
    bitAt (ofPositions w f) i = (decide (1 ≤ i ∧ i ≤ w) && f i) := by
  obtain _ | i := i
  · simp
  · simp [getLsbD_ofPositions]

/-- Two bit arrays with the same bit at every position are equal. -/
theorem eq_of_bitAt_eq {x y : BitVec w} (h : ∀ i, 1 ≤ i → i ≤ w → bitAt x i = bitAt y i) : x = y := by
  apply BitVec.eq_of_getLsbD_eq
  intro i hi
  simpa using h (i + 1) (by omega) (by omega)

/-! ### bitlen and mw -/

/-- The one fact about `bitlen`: bit positions below it are those whose weight does not exceed the number. -/
theorem lt_bitlen_iff (x j : Nat) : j < bitlen x ↔ 2 ^ j ≤ x := by
  unfold bitlen
  split
  · rename_i h; subst h; simp
  · rename_i h
    rw [Nat.lt_succ_iff, Nat.le_log2 h]

theorem bitlen_le_iff (x j : Nat) : bitlen x ≤ j ↔ x < 2 ^ j := by
  have := lt_bitlen_iff x j; omega

theorem lt_two_pow_bitlen (x : Nat) : x < 2 ^ bitlen x := (bitlen_le_iff x _).1 le_rfl

@[simp] theorem bitlen_zero : bitlen 0 = 0 := rfl

theorem bitlen_pos {x : Nat} (h : 1 ≤ x) : 1 ≤ bitlen x := (lt_bitlen_iff x 0).2 (by simpa using h)

theorem bitlen_mono {x y : Nat} (h : x ≤ y) : bitlen x ≤ bitlen y :=
  (bitlen_le_iff x _).2 (lt_of_le_of_lt h (lt_two_pow_bitlen y))

theorem mw_pos (v : Nat) : 1 ≤ mw v := by
  unfold mw
  split
  · exact le_rfl
  · exact bitlen_pos (by omega)

/-- A width holds a payload integer exactly if it is positive and at least the minimal width. -/
theorem mw_le_iff (v L : Nat) : mw v ≤ L ↔ 1 ≤ L ∧ v < 2 ^ L := by
  unfold mw
  split
  · rename_i h; subst h; simp
  · rename_i h
    rw [bitlen_le_iff]
    refine ⟨fun hv => ⟨?_, hv⟩, fun hv => hv.2⟩
    rcases L with _ | L
    · simp at hv; omega
    · omega

theorem lt_two_pow_mw (v : Nat) : v < 2 ^ mw v := ((mw_le_iff v _).1 le_rfl).2

/-! ### kreq -/

theorem kreqFrom_spec (m bound k : Nat) (hk : bound + k = m + 1)
    (below : ∀ j, j < k → 2 ^ j < j + m + 1) :
    kreqFrom m bound k + m + 1 ≤ 2 ^ kreqFrom m bound k ∧
      ∀ j, j < kreqFrom m bound k → 2 ^ j < j + m + 1 := by
  induction bound generalizing k with
  | zero =>
    refine ⟨?_, below⟩
    have h1 : k = m + 1 := by omega
    have h2 : m + 1 ≤ 2 ^ m := Nat.lt_two_pow_self
    simp only [kreqFrom]
    rw [h1, Nat.pow_succ]
    omega
  | succ bound ih =>
    rw [kreqFrom]
    split
    · rename_i h
      refine ih (k + 1) (by omega) fun j hj => ?_
      rcases Nat.lt_succ_iff_lt_or_eq.1 hj with hj | rfl
      · exact below j hj
      · exact h
    · rename_i h
      exact ⟨by omega, below⟩

/-- `kreq(m)` suffices. -/
theorem kreq_enough (m : Nat) : kreq m + m + 1 ≤ 2 ^ kreq m :=
  (kreqFrom_spec m (m + 1) 0 rfl (by simp)).1

/-- No smaller count suffices. -/
theorem lt_of_lt_kreq {m j : Nat} (h : j < kreq m) : 2 ^ j < j + m + 1 :=
  (kreqFrom_spec m (m + 1) 0 rfl (by simp)).2 j h

theorem kreq_le_of_enough {m k : Nat} (h : k + m + 1 ≤ 2 ^ k) : kreq m ≤ k := by
  by_contra hk
  have := lt_of_lt_kreq (m := m) (j := k) (by omega)
  omega

theorem kreq_mono {m m' : Nat} (h : m ≤ m') : kreq m ≤ kreq m' :=
  kreq_le_of_enough (by have := kreq_enough m'; omega)

theorem kreq_pos {m : Nat} (h : 1 ≤ m) : 1 ≤ kreq m := by
  by_contra hk
  have h0 : kreq m = 0 := by omega
  have := kreq_enough m
  rw [h0] at this
  omega

/-- The encoded length has `kreq(m)` binary digits, and lies strictly between two powers of two. -/
theorem encoded_length_between {m : Nat} (h : 1 ≤ m) :
    2 ^ (kreq m - 1) < m + kreq m ∧ m + kreq m < 2 ^ kreq m := by
  have hp := kreq_pos h
  have h1 := kreq_enough m
  have h2 := lt_of_lt_kreq (m := m) (j := kreq m - 1) (by omega)
  omega

theorem bitlen_encoded_length {m : Nat} (h : 1 ≤ m) : bitlen (m + kreq m) = kreq m := by
  obtain ⟨h1, h2⟩ := encoded_length_between h
  have hp := kreq_pos h
  have := (bitlen_le_iff (m + kreq m) (kreq m)).2 h2
  have := (lt_bitlen_iff (m + kreq m) (kreq m - 1)).2 h1.le
  omega

/-! ### Powers of two and positions -/

theorem isPow2_iff (i : Nat) : isPow2 i = true ↔ ∃ k, i = 2 ^ k := by
  constructor
  · intro h
    simp only [isPow2, Bool.and_eq_true, decide_eq_true_eq, beq_iff_eq] at h
    obtain ⟨h1, h2⟩ := h
    refine ⟨bitlen i - 1, ?_⟩
    have hb := bitlen_pos h1
    have hlo := (lt_bitlen_iff i (bitlen i - 1)).1 (by omega)
    have hhi := lt_two_pow_bitlen i
    by_contra hne
    have hbit : ∀ x, 2 ^ (bitlen i - 1) ≤ x → x < 2 ^ bitlen i → x.testBit (bitlen i - 1) = true := by
      intro x hx hx'
      rw [Nat.testBit_eq_decide_div_mod_eq, decide_eq_true_eq]
      have h3 : x / 2 ^ (bitlen i - 1) = 1 := by
        apply Nat.div_eq_of_lt_le
        · simpa using hx
        · have : 2 ^ bitlen i = 2 ^ (bitlen i - 1) * 2 := by rw [← Nat.pow_succ]; congr 1; omega
          omega
      rw [h3]
    have := congrArg (fun n => n.testBit (bitlen i - 1)) h2
    simp only [Nat.testBit_and, Nat.zero_testBit] at this
    rw [hbit i hlo hhi, hbit (i - 1) (by omega) (by omega)] at this
    simp at this
  · rintro ⟨k, rfl⟩
    have h1 : 1 ≤ 2 ^ k := Nat.one_le_two_pow
    have h2 : 2 ^ k &&& (2 ^ k - 1) = 0 := by
      apply Nat.eq_of_testBit_eq
      intro j
      rw [Nat.testBit_and, Nat.testBit_two_pow_sub_one, Nat.testBit_two_pow]
      by_cases hjk : k = j <;> simp [hjk]
    simp [isPow2, h1, h2]

theorem mem_positions {i n : Nat} : i ∈ positions n ↔ 1 ≤ i ∧ i ≤ n := by
  simp only [positions, List.mem_range'_1]; omega

theorem positions_pairwise (n : Nat) : (positions n).Pairwise (· < ·) := List.pairwise_lt_range'

theorem positions_nodup (n : Nat) : (positions n).Nodup := List.nodup_range'

theorem positions_succ (n : Nat) : positions (n + 1) = positions n ++ [n + 1] := by
  simp [positions, List.range'_concat, Nat.add_comm]

theorem mem_ppos {p n : Nat} : p ∈ ppos n ↔ ∃ j, j < bitlen n ∧ p = 2 ^ j := by
  simp [ppos, eq_comm]

theorem two_pow_mem_ppos {j n : Nat} : 2 ^ j ∈ ppos n ↔ j < bitlen n := by
  rw [mem_ppos]
  constructor
  · rintro ⟨k, hk, h⟩
    rwa [Nat.pow_right_injective le_rfl h]
  · exact fun h => ⟨j, h, rfl⟩

theorem mem_ppos_iff {p n : Nat} : p ∈ ppos n ↔ isPow2 p = true ∧ p ≤ n := by
  rw [mem_ppos, isPow2_iff]
  constructor
  · rintro ⟨j, hj, rfl⟩; exact ⟨⟨j, rfl⟩, (lt_bitlen_iff n j).1 hj⟩
  · rintro ⟨⟨j, rfl⟩, h⟩; exact ⟨j, (lt_bitlen_iff n j).2 h, rfl⟩

/-! ### Coverage and parity -/

theorem and_two_pow_eq_iff (i j : Nat) : i &&& 2 ^ j = 2 ^ j ↔ i.testBit j = true := by
  rw [Nat.and_two_pow]
  have := Nat.two_pow_pos j
  cases i.testBit j <;> simp
  omega

theorem mem_cover {i j n : Nat} : i ∈ cover (2 ^ j) n ↔ (1 ≤ i ∧ i ≤ n) ∧ i.testBit j = true := by
  rw [cover, List.mem_filter, mem_positions, beq_iff_eq, and_two_pow_eq_iff]

theorem cover_nodup (p n : Nat) : (cover p n).Nodup := (positions_nodup n).filter _

@[simp] theorem xorOver_nil (f : Nat → Bit) : xorOver [] f = false := rfl

@[simp] theorem xorOver_cons (i : Nat) (S : List Nat) (f : Nat → Bit) :
    xorOver (i :: S) f = (f i ^^ xorOver S f) := rfl

theorem xorOver_append (S T : List Nat) (f : Nat → Bit) : xorOver (S ++ T) f = (xorOver S f ^^ xorOver T f) := by
  induction S with
  | nil => simp
  | cons i S ih => simp [ih]

theorem xorOver_perm {S T : List Nat} (h : S.Perm T) (f : Nat → Bit) : xorOver S f = xorOver T f := by
  induction h with
  | nil => rfl
  | cons i _ ih => simp [ih]
  | swap i j S => simp [Bool.xor_left_comm]
  | trans _ _ ih₁ ih₂ => rw [ih₁, ih₂]

theorem xorOver_congr {S : List Nat} {f g : Nat → Bit} (h : ∀ i ∈ S, f i = g i) : xorOver S f = xorOver S g := by
  induction S with
  | nil => rfl
  | cons i S ih =>
    rw [xorOver_cons, xorOver_cons, h i (by simp), ih fun j hj => h j (by simp [hj])]

theorem xorOver_xor (S : List Nat) (f g : Nat → Bit) :
    xorOver S (fun i => f i ^^ g i) = (xorOver S f ^^ xorOver S g) := by
  induction S with
  | nil => rfl
  | cons i S ih => simp only [xorOver_cons, ih]; cases f i <;> cases g i <;> simp

theorem xorOver_false (S : List Nat) : xorOver S (fun _ => false) = false := by
  induction S with
  | nil => rfl
  | cons i S ih => simp [ih]

/-- The XOR over a list without repeats of the Bit that marks one position. -/
theorem xorOver_eq_mem {S : List Nat} (h : S.Nodup) (p : Nat) : xorOver S (fun i => decide (i = p)) = decide (p ∈ S) := by
  induction S with
  | nil => rfl
  | cons i S ih =>
    rw [List.nodup_cons] at h
    rw [xorOver_cons, ih h.2]
    by_cases hip : i = p
    · subst hip; simp [h.1]
    · simp [hip, Ne.symm hip]

/-- An XOR over the elements that meet a test is the XOR of the masked Bits. -/
theorem xorOver_filter (S : List Nat) (q : Nat → Bool) (f : Nat → Bit) :
    xorOver (S.filter q) f = xorOver S fun i => q i && f i := by
  induction S with
  | nil => rfl
  | cons i S ih =>
    rw [List.filter_cons]
    cases hq : q i <;> simp [hq, ih]

/-- One parity Bit as an XOR over all positions. -/
theorem parityOf_two_pow (f : Nat → Bit) (n j : Nat) :
    parityOf f n (2 ^ j) = xorOver (positions n) fun i => i.testBit j && f i := by
  rw [parityOf, cover, xorOver_filter]
  apply xorOver_congr
  intro i _
  rw [show (i &&& 2 ^ j == 2 ^ j) = i.testBit j from Bool.eq_iff_iff.2 (by rw [beq_iff_eq, and_two_pow_eq_iff])]

theorem parityOf_congr {f g : Nat → Bit} {n p : Nat} (h : ∀ i, 1 ≤ i → i ≤ n → f i = g i) :
    parityOf f n p = parityOf g n p :=
  xorOver_congr fun i hi => by
    have := mem_positions.1 (List.mem_of_mem_filter hi)
    exact h i this.1 this.2

theorem parityVec_congr {f g : Nat → Bit} {n : Nat} (h : ∀ i, 1 ≤ i → i ≤ n → f i = g i) :
    parityVec f n = parityVec g n := by
  rw [parityVec, parityVec]
  exact List.map_congr_left fun p _ => parityOf_congr h

theorem syndromeValue_congr {f g : Nat → Bit} {n : Nat} (h : ∀ i, 1 ≤ i → i ≤ n → f i = g i) :
    syndromeValue f n = syndromeValue g n := by
  rw [syndromeValue, syndromeValue, parityVec_congr h]

/-! ### The syndrome, bit by bit -/

theorem testBit_valueLsbFirst (bs : List Bit) (j : Nat) : (valueLsbFirst bs).testBit j = bs.getD j false := by
  induction bs generalizing j with
  | nil => simp [valueLsbFirst]
  | cons b bs ih =>
    rcases j with _ | j
    · cases b <;> simp [valueLsbFirst, Nat.testBit_zero]
    · have h2 : (b.toNat + 2 * valueLsbFirst bs) / 2 = valueLsbFirst bs := by
        have := Bool.toNat_lt b; omega
      rw [valueLsbFirst, Nat.testBit_succ, h2, ih]
      simp

theorem valueLsbFirst_lt (bs : List Bit) : valueLsbFirst bs < 2 ^ bs.length := by
  induction bs with
  | nil => simp [valueLsbFirst]
  | cons b bs ih =>
    have := Bool.toNat_lt b
    rw [valueLsbFirst, List.length_cons, Nat.pow_succ]
    omega

@[simp] theorem length_parityVec (f : Nat → Bit) (n : Nat) : (parityVec f n).length = bitlen n := by
  simp [parityVec, ppos]

theorem syndromeValue_lt (f : Nat → Bit) (n : Nat) : syndromeValue f n < 2 ^ bitlen n := by
  have := valueLsbFirst_lt (parityVec f n)
  rwa [length_parityVec] at this

/-- Bit `j` of the syndrome is the parity Bit of position `2^j`. -/
theorem testBit_syndromeValue (f : Nat → Bit) (n j : Nat) :
    (syndromeValue f n).testBit j = (decide (j < bitlen n) && parityOf f n (2 ^ j)) := by
  rw [syndromeValue, testBit_valueLsbFirst, parityVec, ppos]
  by_cases h : j < bitlen n <;> simp [List.getD, h]

theorem testBit_xorFold (S : List Nat) (j : Nat) :
    (S.foldr (fun i acc => i ^^^ acc) 0).testBit j = xorOver S fun i => i.testBit j := by
  induction S with
  | nil => simp
  | cons i S ih => rw [List.foldr_cons, Nat.testBit_xor, ih, xorOver_cons]

/-- The syndrome of a codeword whose recomputed parity is all zero. -/
theorem syndromeValue_eq_zero_iff (f : Nat → Bit) (n : Nat) :
    syndromeValue f n = 0 ↔ ∀ b ∈ parityVec f n, b = false := by
  constructor
  · intro h b hb
    obtain ⟨j, hj, rfl⟩ := List.getElem_of_mem hb
    have := testBit_valueLsbFirst (parityVec f n) j
    rw [show valueLsbFirst (parityVec f n) = 0 from h] at this
    rw [Nat.zero_testBit, List.getD, List.getElem?_eq_getElem hj] at this
    exact this.symm
  · intro h
    apply Nat.eq_of_testBit_eq
    intro j
    rw [Nat.zero_testBit, syndromeValue, testBit_valueLsbFirst, List.getD]
    cases hj : (parityVec f n)[j]? with
    | none => rfl
    | some b => exact h b (List.mem_of_getElem? hj)

/-- Toggling one bit of a codeword changes its syndrome by XOR with the bit's position. -/
theorem syndromeValue_toggle (f : Nat → Bit) {n p : Nat} (h1 : 1 ≤ p) (hn : p ≤ n) :
    syndromeValue (fun i => f i ^^ decide (i = p)) n = syndromeValue f n ^^^ p := by
  apply Nat.eq_of_testBit_eq
  intro j
  rw [Nat.testBit_xor, testBit_syndromeValue, testBit_syndromeValue]
  by_cases hj : j < bitlen n
  · have hmask : (fun i => i.testBit j && (f i ^^ decide (i = p))) =
        fun i => (i.testBit j && f i) ^^ (p.testBit j && decide (i = p)) := by
      funext i
      by_cases hip : i = p
      · subst hip; cases i.testBit j <;> simp
      · simp [hip]
    have hp : xorOver (positions n) (fun i => p.testBit j && decide (i = p)) = p.testBit j := by
      cases p.testBit j
      · simpa using xorOver_false (positions n)
      · simpa [mem_positions, h1, hn] using xorOver_eq_mem (positions_nodup n) p
    simp only [hj, decide_true, Bool.true_and, parityOf_two_pow, hmask]
    rw [xorOver_xor, hp]
  · have : p.testBit j = false := by
      apply Nat.testBit_eq_false_of_lt
      have := (bitlen_le_iff n j).1 (by omega)
      omega
    simp [hj, this]

/-! ### Data positions -/

/-- The number of parity positions grows by one at each power of two. -/
theorem bitlen_succ (n : Nat) : bitlen (n + 1) = bitlen n + (isPow2 (n + 1)).toNat := by
  have hb := bitlen_mono (Nat.le_add_right n 1)
  have hhi := lt_two_pow_bitlen n
  have h2 : n + 1 < 2 ^ (bitlen n + 1) := by
    have := Nat.one_le_two_pow (n := bitlen n); rw [Nat.pow_succ]; omega
  have h3 := (bitlen_le_iff (n+1) _).2 h2
  cases hp : isPow2 (n + 1) with
  | true =>
    obtain ⟨k, hk⟩ := (isPow2_iff _).1 hp
    have h4 := (lt_bitlen_iff (n+1) k).2 (by omega)
    have h5 := (bitlen_le_iff n k).2 (by omega)
    simp; omega
  | false =>
    have : n + 1 ≠ 2 ^ bitlen n := fun h => by rw [(isPow2_iff _).2 ⟨_, h⟩] at hp; cases hp
    have := (bitlen_le_iff (n+1) (bitlen n)).2 (by omega)
    simp; omega

theorem dataPositions_succ (n : Nat) :
    dataPositions (n + 1) = dataPositions n ++ if isPow2 (n + 1) then [] else [n + 1] := by
  rw [dataPositions, positions_succ, List.filter_append, ← dataPositions]
  cases h : isPow2 (n + 1) <;> simp [h]

theorem bitlen_le_self (n : Nat) : bitlen n ≤ n := (bitlen_le_iff n n).2 Nat.lt_two_pow_self

/-- There are `n - bitlen(n)` data positions in `1..n`. -/
theorem length_dataPositions (n : Nat) : (dataPositions n).length = n - bitlen n := by
  induction n with
  | zero => rfl
  | succ n ih =>
    have := bitlen_le_self n
    rw [dataPositions_succ, List.length_append, ih, bitlen_succ]
    cases isPow2 (n + 1)
    · simp; omega
    · simp

theorem dataPositions_prefix {n N : Nat} (h : n ≤ N) : dataPositions n <+: dataPositions N := by
  induction N with
  | zero =>
    have : n = 0 := by omega
    subst this; exact List.prefix_rfl
  | succ N ih =>
    rcases Nat.lt_succ_iff_lt_or_eq.1 (Nat.lt_succ_of_le h) with h | rfl
    · exact (ih (by omega)).trans (by rw [dataPositions_succ]; exact List.prefix_append _ _)
    · exact List.prefix_rfl

/-- A data position `i` is number `i - bitlen(i)` in the list of data positions. -/
theorem dataPositions_getElem? {i N : Nat} (h1 : 1 ≤ i) (hN : i ≤ N) (hi : isPow2 i = false) :
    (dataPositions N)[payloadIndex i - 1]? = some i := by
  obtain ⟨n, rfl⟩ : ∃ n, i = n + 1 := ⟨i - 1, by omega⟩
  have hp := dataPositions_prefix hN
  have hl : (dataPositions n).length = payloadIndex (n + 1) - 1 := by
    have := bitlen_le_self n
    rw [length_dataPositions, payloadIndex, bitlen_succ, hi]; simp; omega
  have : (dataPositions (n+1))[payloadIndex (n + 1) - 1]? = some (n + 1) := by
    rw [dataPositions_succ, hi, ← hl]; simp
  obtain ⟨t, ht⟩ := hp
  rw [← ht]
  rw [List.getElem?_append_left]
  · exact this
  · exact (List.getElem?_eq_some_iff.1 this).1

theorem three_le {i : Nat} (h1 : 1 ≤ i) (hi : isPow2 i = false) : 3 ≤ i := by
  rcases i with _ | _ | _ | i
  · omega
  · exact absurd hi (by decide)
  · exact absurd hi (by decide)
  · omega

/-- The data positions are at least as many as one less than half the positions. -/
theorem two_mul_bitlen_le {i : Nat} (h1 : 1 ≤ i) (hi : isPow2 i = false) : 2 * bitlen i ≤ i + 1 := by
  have h3 := three_le h1 hi
  by_cases h8 : i < 8
  · have : ∀ i, i < 8 → 3 ≤ i → isPow2 i = false → 2 * bitlen i ≤ i + 1 := by decide
    exact this i h8 h3 hi
  · have hb : 4 ≤ bitlen i := (lt_bitlen_iff i 3).2 (by omega)
    have hlo := (lt_bitlen_iff i (bitlen i - 1)).1 (by omega)
    obtain ⟨d, hd⟩ : ∃ d, bitlen i = d + 4 := ⟨bitlen i - 4, by omega⟩
    have h4 : d + 1 ≤ 2 ^ d := Nat.lt_two_pow_self
    rw [hd, show d + 4 - 1 = d + 3 by omega, Nat.pow_add] at hlo
    omega

theorem payloadIndex_pos {i : Nat} (h1 : 1 ≤ i) (hi : isPow2 i = false) : 1 ≤ payloadIndex i := by
  have := three_le h1 hi
  have := two_mul_bitlen_le h1 hi
  rw [payloadIndex]; omega

/-- `dpos` undoes `payloadIndex` on data positions. -/
theorem dpos_payloadIndex {i : Nat} (h1 : 1 ≤ i) (hi : isPow2 i = false) : dpos (payloadIndex i) = i := by
  have h2 := two_mul_bitlen_le h1 hi
  have h3 : i ≤ 2 * payloadIndex i + 1 := by rw [payloadIndex]; omega
  rw [dpos, List.getD, dataPositions_getElem? h1 h3 hi]; rfl

theorem mem_dataPositions {i n : Nat} : i ∈ dataPositions n ↔ (1 ≤ i ∧ i ≤ n) ∧ isPow2 i = false := by
  simp [dataPositions, mem_positions]

/-- Payload bit `j` has a data position, and its number there is `j`. -/
theorem dpos_spec {j : Nat} (hj : 1 ≤ j) :
    (1 ≤ dpos j ∧ dpos j ≤ 2 * j + 1) ∧ isPow2 (dpos j) = false ∧ payloadIndex (dpos j) = j := by
  have hlen : j - 1 < (dataPositions (2 * j + 1)).length := by
    rw [length_dataPositions]
    have : bitlen (2 * j + 1) ≤ j + 1 := (bitlen_le_iff _ _).2 (by
      have : j + 1 ≤ 2 ^ j := Nat.lt_two_pow_self
      rw [Nat.pow_succ]; omega)
    omega
  have hmem : dpos j ∈ dataPositions (2 * j + 1) := by
    rw [dpos, List.getD, List.getElem?_eq_getElem hlen]; exact List.getElem_mem hlen
  obtain ⟨⟨h1, h2⟩, h3⟩ := mem_dataPositions.1 hmem
  refine ⟨⟨h1, h2⟩, h3, ?_⟩
  have h4 := dataPositions_getElem? h1 h2 h3
  have h5 : (dataPositions (2 * j + 1))[j - 1]? = some (dpos j) := by
    rw [dpos, List.getD, List.getElem?_eq_getElem hlen]; rfl
  have hnd : (dataPositions (2 * j + 1)).Nodup := (positions_nodup _).filter _
  obtain ⟨hlt, he⟩ := List.getElem?_eq_some_iff.1 h4
  have := (hnd.getElem_inj_iff (hi := hlt) (hj := hlen)).1 (by
    rw [he]; exact (List.getElem?_eq_some_iff.1 h5).2.symm)
  have := payloadIndex_pos h1 h3
  omega

/-! ### The codec -/

theorem intOf_snoc (s : List Bit) (b : Bit) : intOf (s ++ [b]) = 2 * intOf s + b.toNat := by
  rw [intOf, List.foldl_append]
  show (intOf s <<< 1) ||| b.toNat = _
  rw [← Nat.shiftLeft_add_eq_or_of_lt (by simpa using Bool.toNat_lt b), Nat.shiftLeft_eq]
  omega

/-- The codec, bit by bit: bit `j` of the integer is the `j`-th Bit from the end (00_scope.md R16). -/
theorem testBit_intOf (s : List Bit) (j : Nat) : (intOf s).testBit j = (decide (j < s.length) && s.getD (s.length - (j + 1)) false) := by
  induction s using List.reverseRecOn generalizing j with
  | nil => simp [intOf]
  | append_singleton s b ih =>
    rw [intOf_snoc]
    rcases j with _ | j
    · cases b <;> simp [List.getD]
    · have : (2 * intOf s + b.toNat) / 2 = intOf s := by have := Bool.toNat_lt b; omega
      rw [Nat.testBit_succ, this, ih]
      by_cases hj : j < s.length
      · simp only [hj, decide_true, List.length_append, List.length_singleton, Bool.true_and]
        rw [show s.length + 1 - (j + 1 + 1) = s.length - (j + 1) by omega, List.getD_append _ _ _ _ (by omega)]
        simp [hj]
      · simp [hj]

/-- The data positions in order are the images of the payload bit numbers (10_state.md R28, 40_layout.md R92). -/
theorem dataPositions_eq_map (n : Nat) : dataPositions n = (positions (n - bitlen n)).map dpos := by
  have hnd : (dataPositions n).Nodup := (positions_nodup _).filter _
  apply List.ext_getElem
  · simp [length_dataPositions, positions]
  · intro k hk hk'
    obtain ⟨⟨h1, h2⟩, h3⟩ := mem_dataPositions.1 (List.getElem_mem hk)
    generalize hi : (dataPositions n)[k] = i at *
    obtain ⟨hlt, he⟩ := List.getElem?_eq_some_iff.1 (dataPositions_getElem? h1 h2 h3)
    have := (hnd.getElem_inj_iff (hi := hlt) (hj := hk)).1 (by rw [he, hi])
    have := payloadIndex_pos h1 h3
    have h5 := dpos_payloadIndex h1 h3
    simp only [positions, List.getElem_map, List.getElem_range']
    rw [show 1 + 1 * k = payloadIndex i by omega, h5]

theorem xorOver_map (S : List Nat) (g : Nat → Nat) (f : Nat → Bit) :
    xorOver (S.map g) f = xorOver S fun i => f (g i) := by
  induction S with
  | nil => rfl
  | cons i S ih => simp [ih]

end Sys2Proof.Machine
end

