-- ==== Sys2Proof/Laws/Config.lean ====
section
/-! SUPPORT. The bounds of the parameters of 00_scope.md section 3. -/

namespace Sys2Proof

open Machine

variable (c : Config)

theorem Config.mMax_le_nMax : c.mMax ≤ c.nMax := by simp [Config.nMax]

/-- The longest codeword fits a 7-bit LEN, since `kreq(120) = 7` (R10). -/
theorem Config.nMax_le : c.nMax ≤ 127 := by
  have h1 := c.mMax_le
  have h2 : c.kMax ≤ 7 := kreq_le_of_enough (by omega)
  simp only [Config.nMax]; omega

theorem Config.encoded_le_nMax {m : Nat} (h : m ≤ c.mMax) : m + kreq m ≤ c.nMax := by
  have := kreq_mono h
  simp only [Config.nMax, Config.kMax]; omega

theorem Config.nMax_lt_two_pow_sw : c.nMax < 2 ^ c.sw := lt_two_pow_bitlen c.nMax

/-- A syndrome of a codeword that fits the register fits SYN (R8). -/
theorem Config.syndromeValue_lt (f : Nat → Bit) {n : Nat} (h : n ≤ c.nMax) : syndromeValue f n < 2 ^ c.sw :=
  lt_of_lt_of_le (Machine.syndromeValue_lt f n) (Nat.pow_le_pow_right (by omega) (bitlen_mono h))

end Sys2Proof
end

