-- ==== Sys2Proof/Laws/Decode.lean ====
section
/-! SUPPORT. Decoding and encoding by the fields of the word: the spec lemmas of `decode`, `packFields` and the field
readers. -/

namespace Sys2Proof

/-- `decode` over a given list of rows. -/
def decodeFrom (w : CommandWord) (rows : List OpcodeRow) : Decoded :=
  match rows.find? (rowMatches w) with
  | some r => .command (commandOf r.name (rdOf w) (rsOf w) (immOf w))
  | none => .illegal

theorem decodeFrom_cons (w : CommandWord) (r : OpcodeRow) (rows : List OpcodeRow) :
    decodeFrom w (r :: rows) =
      if w &&& r.mask = r.value then .command (commandOf r.name (rdOf w) (rsOf w) (immOf w)) else decodeFrom w rows := by
  unfold decodeFrom
  by_cases h : w &&& r.mask = r.value <;> simp [rowMatches, h]

/-- `decode`, row by row, by mask and value (R70). -/
theorem decode_eq (w : CommandWord) :
    decode w =
      if w &&& 0xF7FF = 0x1000 then .command (.loadi (rdOf w))
      else if w &&& 0xF780 = 0x2000 then .command (.loadb (rdOf w) (immOf w))
      else if w &&& 0xF780 = 0x3000 then .command (.loadc (rdOf w) (immOf w))
      else if w &&& 0xF7FF = 0x4000 then .command (.space (rdOf w))
      else if w &&& 0xF7FF = 0x5000 then .command (.populate (rdOf w))
      else if w &&& 0xF780 = 0x6000 then .command (.flip (rdOf w) (immOf w))
      else if w &&& 0xF7FF = 0x7000 then .command (.syndrome (rdOf w))
      else if w &&& 0xF3FF = 0x8000 then .command (.clone (rdOf w) (rsOf w))
      else if w &&& 0xFFFF = 0x9000 then .command .clrerr
      else .illegal := by
  rw [show decode w = decodeFrom w opcodeRows from rfl, opcodeRows]
  simp only [decodeFrom_cons, commandOf]
  rfl

theorem eq_iff_bits {n : Nat} (x y : BitVec n) : x = y ↔ ∀ i : Fin n, x.getLsbD i = y.getLsbD i :=
  ⟨by rintro rfl _; rfl, fun h => BitVec.eq_of_getLsbD_eq fun i hi => h ⟨i, hi⟩⟩

/-! A word under a mask of R60 to R68, as its fields: each mask keeps OPC and the fields that must be 0. -/

theorem mask_F7FF_iff (w : CommandWord) (v : BitVec 4) : w &&& 0xF7FF#16 = v.setWidth 16 <<< 12 ↔
    opcOf w = v ∧ w.getLsbD 10 = false ∧ zOf w = 0 ∧ immOf w = 0 := by
  rw [immOf, show (0:Nat) = (0#7).toNat from rfl, BitVec.toNat_inj]
  simp only [eq_iff_bits, opcOf, zOf]
  simp [Fin.forall_fin_succ]
  tauto

theorem mask_F780_iff (w : CommandWord) (v : BitVec 4) : w &&& 0xF780#16 = v.setWidth 16 <<< 12 ↔
    opcOf w = v ∧ w.getLsbD 10 = false ∧ zOf w = 0 := by
  simp only [eq_iff_bits, opcOf, zOf]
  simp [Fin.forall_fin_succ]
  tauto

theorem mask_F3FF_iff (w : CommandWord) (v : BitVec 4) : w &&& 0xF3FF#16 = v.setWidth 16 <<< 12 ↔
    opcOf w = v ∧ zOf w = 0 ∧ immOf w = 0 := by
  rw [immOf, show (0:Nat) = (0#7).toNat from rfl, BitVec.toNat_inj]
  simp only [eq_iff_bits, opcOf, zOf]
  simp [Fin.forall_fin_succ]
  tauto

theorem mask_FFFF_iff (w : CommandWord) (v : BitVec 4) : w &&& 0xFFFF#16 = v.setWidth 16 <<< 12 ↔
    opcOf w = v ∧ w.getLsbD 11 = false ∧ w.getLsbD 10 = false ∧ zOf w = 0 ∧ immOf w = 0 := by
  rw [immOf, show (0:Nat) = (0#7).toNat from rfl, BitVec.toNat_inj]
  simp only [eq_iff_bits, opcOf, zOf]
  simp [Fin.forall_fin_succ]
  tauto

/-- `decode`, by the fields of the word (R56). -/
theorem decode_fields (w : CommandWord) :
    decode w =
      if opcOf w = 0x1 ∧ w.getLsbD 10 = false ∧ zOf w = 0 ∧ immOf w = 0 then .command (.loadi (rdOf w))
      else if opcOf w = 0x2 ∧ w.getLsbD 10 = false ∧ zOf w = 0 then .command (.loadb (rdOf w) (immOf w))
      else if opcOf w = 0x3 ∧ w.getLsbD 10 = false ∧ zOf w = 0 then .command (.loadc (rdOf w) (immOf w))
      else if opcOf w = 0x4 ∧ w.getLsbD 10 = false ∧ zOf w = 0 ∧ immOf w = 0 then .command (.space (rdOf w))
      else if opcOf w = 0x5 ∧ w.getLsbD 10 = false ∧ zOf w = 0 ∧ immOf w = 0 then .command (.populate (rdOf w))
      else if opcOf w = 0x6 ∧ w.getLsbD 10 = false ∧ zOf w = 0 then .command (.flip (rdOf w) (immOf w))
      else if opcOf w = 0x7 ∧ w.getLsbD 10 = false ∧ zOf w = 0 ∧ immOf w = 0 then .command (.syndrome (rdOf w))
      else if opcOf w = 0x8 ∧ zOf w = 0 ∧ immOf w = 0 then .command (.clone (rdOf w) (rsOf w))
      else if opcOf w = 0x9 ∧ w.getLsbD 11 = false ∧ w.getLsbD 10 = false ∧ 
        zOf w = 0 ∧ immOf w = 0 then .command .clrerr
      else .illegal := by
  rw [decode_eq]
  simp only [← mask_F7FF_iff, ← mask_F780_iff, ← mask_F3FF_iff, ← mask_FFFF_iff]
  rfl


theorem getLsbD_packFields (opc : BitVec 4) (rd rs : Bool) (imm i : Nat) :
    (packFields opc rd rs imm).getLsbD i =
      if i < 7 then (BitVec.ofNat 7 imm).getLsbD i
      else if i < 10 then false
      else if i < 11 then rs
      else if i < 12 then rd
      else opc.getLsbD (i - 12) := by
  refine (BitVec.getLsbD_append (n := 9) (m := 7)).trans ?_
  split
  · rfl
  · refine (BitVec.getLsbD_append (n := 6) (m := 3)).trans ?_
    split
    · rw [if_pos (by omega)]; simp
    · rw [if_neg (by omega)]
      refine (BitVec.getLsbD_append (n := 5) (m := 1)).trans ?_
      split
      · rw [if_pos (by omega), show i - 7 - 3 = 0 by omega]; simp
      · rw [if_neg (by omega)]
        refine (BitVec.getLsbD_append (n := 4) (m := 1)).trans ?_
        split
        · rw [if_pos (by omega), show i - 7 - 3 - 1 = 0 by omega]; simp
        · rw [if_neg (by omega)]; congr 1

/-- A word with Z = 0 is packed from its own fields. -/
theorem packFields_fields (w : CommandWord) (hz : zOf w = 0) :
    packFields (opcOf w) (w.getLsbD 11) (w.getLsbD 10) (immOf w) = w := by
  have h7 : BitVec.ofNat 7 (immOf w) = w.extractLsb' 0 7 := by rw [immOf, BitVec.ofNat_toNat, BitVec.setWidth_eq]
  simp only [eq_iff_bits, zOf] at hz
  simp [Fin.forall_fin_succ] at hz
  simp only [eq_iff_bits, getLsbD_packFields, h7, opcOf]
  simp [Fin.forall_fin_succ, hz]

/-! The fields of a packed word. -/

@[simp] theorem opcOf_packFields (opc : BitVec 4) (rd rs : Bool) (imm : Nat) :
    opcOf (packFields opc rd rs imm) = opc := by
  simp only [eq_iff_bits, opcOf, BitVec.getLsbD_extractLsb', getLsbD_packFields]
  simp [Fin.forall_fin_succ]

@[simp] theorem rdBit_packFields (opc : BitVec 4) (rd rs : Bool) (imm : Nat) :
    (packFields opc rd rs imm).getLsbD 11 = rd := by
  simp only [getLsbD_packFields]; simp

@[simp] theorem rsBit_packFields (opc : BitVec 4) (rd rs : Bool) (imm : Nat) :
    (packFields opc rd rs imm).getLsbD 10 = rs := by
  simp only [getLsbD_packFields]; simp

@[simp] theorem zOf_packFields (opc : BitVec 4) (rd rs : Bool) (imm : Nat) :
    zOf (packFields opc rd rs imm) = 0 := by
  simp only [eq_iff_bits, zOf, BitVec.getLsbD_extractLsb', getLsbD_packFields]
  simp [Fin.forall_fin_succ]

theorem immOf_packFields (opc : BitVec 4) (rd rs : Bool) {imm : Nat} (h : imm ≤ 127) :
    immOf (packFields opc rd rs imm) = imm := by
  have h7 : immOf (packFields opc rd rs imm) = (BitVec.ofNat 7 imm).toNat := by
    rw [immOf, BitVec.toNat_inj]
    simp only [eq_iff_bits, BitVec.getLsbD_extractLsb', getLsbD_packFields]
    simp
  rw [h7, BitVec.toNat_ofNat]
  omega

theorem rdOf_packFields (opc : BitVec 4) (rd : Reg) (rs : Bool) (imm : Nat) :
    rdOf (packFields opc (bitOfReg rd) rs imm) = rd := by
  rw [rdOf, rdBit_packFields]; cases rd <;> rfl

theorem rsOf_packFields (opc : BitVec 4) (rd : Bool) (rs : Reg) (imm : Nat) :
    rsOf (packFields opc rd (bitOfReg rs) imm) = rs := by
  rw [rsOf, rsBit_packFields]; cases rs <;> rfl

@[simp] theorem regOfBit_bitOfReg (r : Reg) : regOfBit (bitOfReg r) = r := by cases r <;> rfl

@[simp] theorem bitOfReg_regOfBit (b : Bit) : bitOfReg (regOfBit b) = b := by cases b <;> rfl

end Sys2Proof
end

