-- ==== Sys2Proof/Laws/State.lean ====
section
/-! SUPPORT. One lemma for each field of each state update, so that no later proof unfolds an update. -/

namespace Sys2Proof.Machine

variable {c : Config}

/-! ### Writing a codeword register -/

@[simp] theorem Arch.reg_r0 (a : Arch c) : a.reg .r0 = a.r0 := rfl
@[simp] theorem Arch.reg_r1 (a : Arch c) : a.reg .r1 = a.r1 := rfl

@[simp] theorem Arch.reg_setReg (a : Arch c) (r : Reg) (x : CodewordReg c) : (a.setReg r x).reg r = x := by
  cases r <;> rfl

theorem Arch.reg_setReg_ne (a : Arch c) {r q : Reg} (x : CodewordReg c) (h : q ≠ r) :
    (a.setReg r x).reg q = a.reg q := by
  cases r <;> cases q <;> first | rfl | exact absurd rfl h

@[simp] theorem Arch.setReg_syn (a : Arch c) (r : Reg) (x : CodewordReg c) : (a.setReg r x).syn = a.syn := by
  cases r <;> rfl
@[simp] theorem Arch.setReg_status (a : Arch c) (r : Reg) (x : CodewordReg c) :
    (a.setReg r x).status = a.status := by
  cases r <;> rfl
@[simp] theorem Arch.setReg_ecmd (a : Arch c) (r : Reg) (x : CodewordReg c) : (a.setReg r x).ecmd = a.ecmd := by
  cases r <;> rfl

@[simp] theorem Arch.setReg_setReg (a : Arch c) (r : Reg) (x y : CodewordReg c) :
    (a.setReg r x).setReg r y = a.setReg r y := by
  cases r <;> rfl

@[simp] theorem Arch.setReg_reg (a : Arch c) (r : Reg) : a.setReg r (a.reg r) = a := by
  cases r <;> rfl

/-! ### STATUS -/

@[simp] theorem syndromeFlags_err (x : Status) (s n : Nat) : (syndromeFlags x s n).err = x.err := rfl
@[simp] theorem syndromeFlags_cause (x : Status) (s n : Nat) : (syndromeFlags x s n).cause = x.cause := rfl
@[simp] theorem syndromeFlags_sv (x : Status) (s n : Nat) : (syndromeFlags x s n).sv = true := rfl
@[simp] theorem syndromeFlags_sz (x : Status) (s n : Nat) : (syndromeFlags x s n).sz = decide (s = 0) := rfl
@[simp] theorem syndromeFlags_soor (x : Status) (s n : Nat) : (syndromeFlags x s n).soor = decide (n < s) := rfl

@[simp] theorem clearedStatus_err (x : Status) : (clearedStatus x).err = false := rfl
@[simp] theorem clearedStatus_cause (x : Status) : (clearedStatus x).cause = none := rfl
@[simp] theorem clearedStatus_sv (x : Status) : (clearedStatus x).sv = x.sv := rfl
@[simp] theorem clearedStatus_sz (x : Status) : (clearedStatus x).sz = x.sz := rfl
@[simp] theorem clearedStatus_soor (x : Status) : (clearedStatus x).soor = x.soor := rfl

@[simp] theorem faultedStatus_err (x : Status) (f : FaultCause) : (faultedStatus x f).err = true := rfl
@[simp] theorem faultedStatus_cause (x : Status) (f : FaultCause) : (faultedStatus x f).cause = some f := rfl
@[simp] theorem faultedStatus_sv (x : Status) (f : FaultCause) : (faultedStatus x f).sv = x.sv := rfl
@[simp] theorem faultedStatus_sz (x : Status) (f : FaultCause) : (faultedStatus x f).sz = x.sz := rfl
@[simp] theorem faultedStatus_soor (x : Status) (f : FaultCause) : (faultedStatus x f).soor = x.soor := rfl

/-! ### The machine's updates -/

@[simp] theorem State.sample_arch (s : State) (p : PortSample Config.reference) (rest) :
    (s.sample p rest).arch = s.arch := rfl
@[simp] theorem State.sample_port (s : State) (p : PortSample Config.reference) (rest) :
    (s.sample p rest).port = p := rfl
@[simp] theorem State.sample_queue (s : State) (p : PortSample Config.reference) (rest) :
    (s.sample p rest).queue = rest := rfl

@[simp] theorem State.resetEvent_arch (s : State) : s.resetEvent.arch = Arch.reset Config.reference := rfl
@[simp] theorem State.resetEvent_port (s : State) : s.resetEvent.port = s.port := rfl
@[simp] theorem State.resetEvent_queue (s : State) : s.resetEvent.queue = s.queue := rfl

@[simp] theorem State.stageWord_arch (s : State) (w : CommandWord) : (s.stageWord w).arch = s.arch := rfl
@[simp] theorem State.stageWord_port (s : State) (w : CommandWord) : (s.stageWord w).port = s.port := rfl
@[simp] theorem State.stageWord_queue (s : State) (w : CommandWord) :
    (s.stageWord w).queue = ⟨w, 0#_, false⟩ :: s.queue := rfl

/-! ### The output ports (20_memory.md R42) -/

@[simp] theorem Arch.outputs_cwout0 (a : Arch c) : a.outputs.cwout0 = a.r0.cwout := rfl
@[simp] theorem Arch.outputs_cwout1 (a : Arch c) : a.outputs.cwout1 = a.r1.cwout := rfl
@[simp] theorem Arch.outputs_len0 (a : Arch c) : a.outputs.len0 = a.r0.len := rfl
@[simp] theorem Arch.outputs_len1 (a : Arch c) : a.outputs.len1 = a.r1.len := rfl
@[simp] theorem Arch.outputs_st0 (a : Arch c) : a.outputs.st0 = lifecycleCode a.r0.st := rfl
@[simp] theorem Arch.outputs_st1 (a : Arch c) : a.outputs.st1 = lifecycleCode a.r1.st := rfl
@[simp] theorem Arch.outputs_syn (a : Arch c) : a.outputs.syn = a.syn := rfl
@[simp] theorem Arch.outputs_status (a : Arch c) : a.outputs.status = statusWord a.status := rfl
@[simp] theorem Arch.outputs_ecmd (a : Arch c) : a.outputs.ecmd = a.ecmd := rfl
@[simp] theorem Arch.outputs_errO (a : Arch c) : a.outputs.errO = a.status.err := rfl

end Sys2Proof.Machine
end

