-- ==== Sys2Proof/Laws/Ops.lean ====
section
/-! SUPPORT. What the shared operations can do: taking a fault, committing a command, and one step; and, for each
command, when its pseudocode completes and what it then gives. Later proofs cite these and unfold no meaning. -/

namespace Sys2Proof.Machine

variable {c : Config}

/-! ### Taking a fault and committing -/

/-- Everything taking a fault can do (60_exceptions.md R155). -/
theorem Arch.raiseFault_refused (a : Arch c) (w : CommandWord) (f : FaultCause) :
    a.RefusedWith w f (a.raiseFault w f) := by
  unfold Arch.RefusedWith Arch.raiseFault
  cases h : a.status.err <;> simp [h]

theorem Arch.raiseFault_of_err {a : Arch c} (h : a.status.err = true) (w : CommandWord) (f : FaultCause) :
    a.raiseFault w f = a := by
  simp [Arch.raiseFault, h]

theorem Arch.reg_raiseFault (a : Arch c) (w : CommandWord) (f : FaultCause) (r : Reg) :
    (a.raiseFault w f).reg r = a.reg r := by
  obtain ⟨h0, h1, -⟩ := a.raiseFault_refused w f
  cases r
  · exact h0
  · exact h1

@[simp] theorem Arch.commit_ok (a a' : Arch c) (w : CommandWord) : a.commit w (.ok a') = a' := rfl
@[simp] theorem Arch.commit_error (a : Arch c) (w : CommandWord) (f : FaultCause) :
    a.commit w (.error f) = a.raiseFault w f := rfl

theorem transact_eq (s : State) (r : Except FaultCause (Arch Config.reference)) :
    s.transact r = .next { s with arch := s.arch.commit s.port.cmd r } := rfl

/-- The machine's meaning of a command is its pseudocode, committed. -/
theorem exec_eq (i : Instr) (s : State) :
    exec i s = .next { s with arch := s.arch.commit s.port.cmd (perform i s.port.din s.arch) } := by
  cases i <;> rfl

/-- A command whose pseudocode completes leads to the state it gives. -/
theorem exec_of_ok {i : Instr} {s : State} {a : Arch Config.reference}
    (h : perform i s.port.din s.arch = .ok a) : exec i s = .next { s with arch := a } := by
  rw [exec_eq, h, Arch.commit_ok]

/-- A command whose pseudocode raises a fault is refused with it. -/
theorem refuses_of_error {i : Instr} {s : State} {f : FaultCause}
    (h : perform i s.port.din s.arch = .error f) : s.Refuses i f :=
  ⟨{ s with arch := s.arch.raiseFault s.port.cmd f }, by rw [exec_eq, h, Arch.commit_error],
    s.arch.raiseFault_refused s.port.cmd f, rfl, rfl⟩

/-! ### Operands -/

theorem fitsLength_iff (din : BitVec w) (L : Nat) : fitsLength din L = true ↔ din.toNat < 2 ^ L := by
  have h : (din >>> L).toNat = din.toNat / 2 ^ L := by simp [Nat.shiftRight_eq_div_pow]
  rw [fitsLength, beq_iff_eq, ← BitVec.toNat_inj, h]
  simp only [BitVec.toNat_ofNat, Nat.zero_mod]
  rw [Nat.div_eq_zero_iff_lt (Nat.two_pow_pos L)]

theorem shiftRight_eq_zero_iff (v L : Nat) : v >>> L = 0 ↔ v < 2 ^ L := by
  rw [Nat.shiftRight_eq_div_pow, Nat.div_eq_zero_iff_lt (Nat.two_pow_pos L)]

theorem length_mk (cw : BitVec c.nMax) (st : Lifecycle) {n : Nat} (h : n ≤ 127) :
    CodewordReg.length (⟨cw, BitVec.ofNat 7 n, st⟩ : CodewordReg c) = n := by
  simp only [CodewordReg.length, BitVec.toNat_ofNat]; omega

/-- A register whose bits are given position by position, with nothing above its length, holds that sequence. -/
theorem holds_mk (f g : Nat → Bit) (st : Lifecycle) {L : Nat} (hL : L ≤ c.nMax)
    (hg : ∀ i, 1 ≤ i → i ≤ L → g i = f i) (above : ∀ i, L < i → g i = false) :
    (⟨ofPositions c.nMax g, BitVec.ofNat 7 L, st⟩ : CodewordReg c).Holds L f st := by
  refine ⟨length_mk _ _ (hL.trans c.nMax_le), rfl, fun i h1 h2 => ?_, fun i h => ?_⟩
  · simp only [CodewordReg.bit, bitAt_ofPositions]
    rw [hg i h1 h2]; simp [h1, h2.trans hL]
  · simp only [CodewordReg.bit, bitAt_ofPositions]
    rw [above i h]; simp

/-- What a load of length `L` from din leaves in its register. -/
theorem loadedReg_holds (din : BitVec c.nMax) (st : Lifecycle) {L : Nat} (hL : L ≤ c.nMax) :
    (loadedReg c din L st).Holds L (fun i => din.getLsbD (L - i)) st :=
  holds_mk _ _ st hL (fun i _ h2 => by simp [h2]) (fun i h => by simp [Nat.not_le.2 h])

/-! ### Each command's pseudocode -/

theorem loadi_ok {rd : Reg} {din : BitVec c.nMax} {a : Arch c} (h : mw din.toNat ≤ c.mMax) :
    loadi rd din a = .ok (a.setReg rd (loadedReg c din (mw din.toNat) .payload)) := by
  simp [loadi, Nat.not_lt.2 h]

theorem loadi_error {rd : Reg} {din : BitVec c.nMax} {a : Arch c} (h : c.mMax < mw din.toNat) :
    loadi rd din a = .error .length := by
  simp [loadi, h]

theorem loadb_ok {rd : Reg} {m : Nat} {din : BitVec c.nMax} {a : Arch c} (h1 : 1 ≤ m) (h2 : m ≤ c.mMax)
    (h3 : din.toNat < 2 ^ m) : loadb rd m din a = .ok (a.setReg rd (loadedReg c din m .payload)) := by
  simp [loadb, (fitsLength_iff din m).2 h3, Nat.not_lt.2 h2, show ¬m = 0 by omega]

theorem loadb_error {rd : Reg} {m : Nat} {din : BitVec c.nMax} {a : Arch c}
    (h : m < 1 ∨ c.mMax < m ∨ ¬din.toNat < 2 ^ m) : loadb rd m din a = .error .length := by
  unfold loadb
  split
  · rfl
  · rename_i h'
    have : fitsLength din m = false := by
      rw [← Bool.not_eq_true, fitsLength_iff]; tauto
    simp [this]

theorem loadc_ok {rd : Reg} {n : Nat} {din : BitVec c.nMax} {a : Arch c} (h1 : 1 ≤ n) (h2 : n ≤ c.nMax)
    (h3 : din.toNat < 2 ^ n) : loadc rd n din a = .ok (a.setReg rd (loadedReg c din n .populated)) := by
  simp [loadc, (fitsLength_iff din n).2 h3, Nat.not_lt.2 h2, show ¬n = 0 by omega]

theorem loadc_error {rd : Reg} {n : Nat} {din : BitVec c.nMax} {a : Arch c}
    (h : n < 1 ∨ c.nMax < n ∨ ¬din.toNat < 2 ^ n) : loadc rd n din a = .error .length := by
  unfold loadc
  split
  · rfl
  · rename_i h'
    have : fitsLength din n = false := by
      rw [← Bool.not_eq_true, fitsLength_iff]; tauto
    simp [this]

theorem space_ok {rd : Reg} {a : Arch c} (h : (a.reg rd).st = .payload) :
    space rd a = .ok (a.setReg rd (spacedReg (a.reg rd))) := by
  simp [space, h]

theorem space_error {rd : Reg} {a : Arch c} (h : (a.reg rd).st ≠ .payload) : space rd a = .error .sequence := by
  simp [space, h]

theorem populate_ok {rd : Reg} {a : Arch c} (h : (a.reg rd).st = .spaced) :
    populate rd a = .ok (a.setReg rd (populatedReg (a.reg rd))) := by
  simp [populate, h]

theorem populate_error {rd : Reg} {a : Arch c} (h : (a.reg rd).st ≠ .spaced) :
    populate rd a = .error .sequence := by
  simp [populate, h]

theorem flipAllowed_iff (st : Lifecycle) : flipAllowed st = true ↔ st = .payload ∨ st = .populated := by
  cases st <;> simp [flipAllowed]

theorem flip_ok {rd : Reg} {pos : Nat} {a : Arch c} (h : flipAllowed (a.reg rd).st = true) (h1 : 1 ≤ pos)
    (h2 : pos ≤ (a.reg rd).length) : flip rd pos a = .ok (a.setReg rd (flippedReg (a.reg rd) pos)) := by
  simp [flip, h, Nat.not_lt.2 h2, show ¬pos = 0 by omega]

theorem flip_error_sequence {rd : Reg} {pos : Nat} {a : Arch c} (h : flipAllowed (a.reg rd).st = false) :
    flip rd pos a = .error .sequence := by
  simp [flip, h]

theorem flip_error_range {rd : Reg} {pos : Nat} {a : Arch c} (h : flipAllowed (a.reg rd).st = true)
    (h' : pos < 1 ∨ (a.reg rd).length < pos) : flip rd pos a = .error .range := by
  rw [flip, h, if_pos h']; rfl

theorem syndrome_ok {rd : Reg} {a : Arch c} (h : (a.reg rd).st = .populated) :
    syndrome rd a = .ok { a with
      syn := BitVec.ofNat c.sw (a.reg rd).syndrome
      status := syndromeFlags a.status (a.reg rd).syndrome (a.reg rd).length } := by
  simp [syndrome, h]

theorem syndrome_error {rd : Reg} {a : Arch c} (h : (a.reg rd).st ≠ .populated) :
    syndrome rd a = .error .sequence := by
  simp [syndrome, h]

/-- Everything a command's pseudocode can do when it completes: it writes its destination register, or it is a
SYNDROME, or it is CLRERR. -/
theorem perform_ok_cases {i : Instr} {din : BitVec c.nMax} {a a' : Arch c} (h : perform i din a = .ok a') :
    (∃ rd x, destinationOf i = some rd ∧ a' = a.setReg rd x) ∨
    (∃ rd, i = .syndrome rd ∧ (a.reg rd).st = .populated ∧
      a' = { a with
        syn := BitVec.ofNat c.sw (a.reg rd).syndrome
        status := syndromeFlags a.status (a.reg rd).syndrome (a.reg rd).length }) ∨
    (i = .clrerr ∧ a' = { a with status := clearedStatus a.status, ecmd := 0x0000 }) := by
  cases i with
  | loadi rd =>
    simp only [perform, loadi] at h
    split at h <;> simp at h
    exact .inl ⟨rd, _, rfl, h.symm⟩
  | loadb rd m =>
    simp only [perform, loadb] at h
    split at h
    · simp at h
    · split at h <;> simp at h
      exact .inl ⟨rd, _, rfl, h.symm⟩
  | loadc rd n =>
    simp only [perform, loadc] at h
    split at h
    · simp at h
    · split at h <;> simp at h
      exact .inl ⟨rd, _, rfl, h.symm⟩
  | space rd =>
    simp only [perform, space] at h
    split at h <;> simp at h
    exact .inl ⟨rd, _, rfl, h.symm⟩
  | populate rd =>
    simp only [perform, populate] at h
    split at h <;> simp at h
    exact .inl ⟨rd, _, rfl, h.symm⟩
  | flip rd pos =>
    simp only [perform, flip] at h
    split at h
    · simp at h
    · split at h <;> simp at h
      exact .inl ⟨rd, _, rfl, h.symm⟩
  | syndrome rd =>
    simp only [perform, syndrome] at h
    split at h <;> simp at h
    exact .inr (.inl ⟨rd, rfl, ‹_›, h.symm⟩)
  | clone rd rs =>
    simp only [perform, clone] at h
    simp at h
    exact .inl ⟨rd, _, rfl, h.symm⟩
  | clrerr =>
    simp only [perform, clrerr] at h
    simp at h
    exact .inr (.inr ⟨rfl, h.symm⟩)

/-! ### One step -/

/-- Everything a step can do: nothing is presented and nothing changes; reset; a command; or an illegal word. -/
theorem step_cases (s : State) :
    (s.queue = [] ∧ step s = .next s) ∨
    ∃ p rest, s.queue = p :: rest ∧
      ((p.rst = true ∧ step s = .next { arch := Arch.reset Config.reference, port := p, queue := rest }) ∨
      (p.rst = false ∧ ∃ i, decode p.cmd = .command i ∧ step s = exec i (s.sample p rest)) ∨
      (p.rst = false ∧ decode p.cmd = .illegal ∧
        step s = .next { arch := s.arch.raiseFault p.cmd .illegal, port := p, queue := rest })) := by
  cases hq : s.queue with
  | nil => exact .inl ⟨rfl, by simp [step, presentNext, hq]⟩
  | cons p rest =>
    refine .inr ⟨p, rest, rfl, ?_⟩
    cases hr : p.rst with
    | true => exact .inl ⟨rfl, by simp [step, presentNext, hq, runPort, hr, State.resetEvent, State.sample]⟩
    | false =>
      cases hd : decode p.cmd with
      | command i => exact .inr (.inl ⟨rfl, i, rfl, by simp [step, presentNext, hq, runPort, hr, hd]⟩)
      | illegal =>
        exact .inr (.inr ⟨rfl, rfl, by
          simp [step, presentNext, hq, runPort, hr, hd, State.illegalWord, State.transact, State.sample]⟩)

end Sys2Proof.Machine
end

