-- ==== Sys2Proof/Laws/Inv.lean ====
section
/-! SUPPORT. The invariant of Safety.lean under the shared operations, and what SPACE, POPULATE and FLIP leave in a
well-formed register. -/

namespace Sys2Proof.Machine

variable {c : Config}

/-- A register that holds a sequence of a length its lifecycle state allows is well formed. -/
theorem CodewordReg.WF.of_holds {x : CodewordReg c} {L f st} (h : x.Holds L f st)
    (he : st ≠ .empty) (hL : 1 ≤ L)
    (hp : st = .payload → L ≤ c.mMax) (hs : st = .spaced → ∃ m, 1 ≤ m ∧ m ≤ c.mMax ∧ L = m + kreq m)
    (hs' : st = .spaced → ∀ p ∈ ppos L, f p = false) (hn : L ≤ c.nMax) : x.WF := by
  obtain ⟨h1, h2, h3, h4⟩ := h
  subst h1 h2
  exact ⟨h4, ⟨fun h => absurd h he, fun h => by omega⟩, fun h => ⟨hL, hp h⟩, hs, fun h p hp' => by
    rw [h3 p]
    · exact hs' h p hp'
    · obtain ⟨j, -, rfl⟩ := mem_ppos.1 hp'; exact Nat.one_le_two_pow
    · exact (mem_ppos_iff.1 hp').2, fun h => ⟨hL, hn⟩⟩

/-- A well-formed register's length fits the register. -/
theorem CodewordReg.WF.length_le {x : CodewordReg c} (h : x.WF) : x.length ≤ c.nMax := by
  cases hs : x.st with
  | empty => have := h.empty_iff.1 hs; omega
  | payload => have := h.payload_length hs; have := c.mMax_le_nMax; omega
  | spaced => obtain ⟨m, -, h2, h3⟩ := h.spaced_length hs; have := c.encoded_le_nMax h2; omega
  | populated => exact (h.populated_length hs).2

theorem Arch.Inv.reg {a : Arch c} (h : a.Inv) (r : Reg) : (a.reg r).WF := by
  cases r; exacts [h.r0_wf, h.r1_wf]

/-- Writing a well-formed register keeps the invariant. -/
theorem Arch.Inv.setReg {a : Arch c} (h : a.Inv) (r : Reg) {x : CodewordReg c} (hx : x.WF) : (a.setReg r x).Inv := by
  cases r
  · exact ⟨hx, h.r1_wf, ⟨h.status_wf.1, h.status_wf.2, h.status_wf.3, h.status_wf.4, h.status_wf.5, h.status_wf.6⟩⟩
  · exact ⟨h.r0_wf, hx, ⟨h.status_wf.1, h.status_wf.2, h.status_wf.3, h.status_wf.4, h.status_wf.5, h.status_wf.6⟩⟩

/-- Taking a fault keeps the invariant. -/
theorem Arch.Inv.raiseFault {a : Arch c} (h : a.Inv) (w f) : (a.raiseFault w f).Inv := by
  unfold Arch.raiseFault
  split
  · exact h
  · refine ⟨h.r0_wf, h.r1_wf, ⟨?_, ?_, ?_, ?_, ?_, ?_⟩⟩ <;> simp
    · exact h.status_wf.sz_of_sv
    · simpa using h.status_wf.soor_sz
    · exact h.status_wf.flags_of_no_sv

/-- What SPACE leaves in its register (41_encoder.md R102). -/
theorem spacedReg_holds {x : CodewordReg c} (h : x.length ≤ c.mMax) :
   (spacedReg x).Holds (x.length + kreq x.length)
          (fun i => if isPow2 i then false else x.bit (i - bitlen i)) .spaced := by
  refine holds_mk _ _ _ (c.encoded_le_nMax h) (fun i h1 h2 => ?_) (fun i h => ?_)
  · simp only [spacedBit, h2, decide_true, Bool.true_and, payloadIndex]
    cases isPow2 i <;> simp
  · simp [spacedBit, Nat.not_le.2 h]

/-- Every bit of the register POPULATE leaves (41_encoder.md R103). -/
theorem populatedReg_bit (x : CodewordReg c) (hx : x.WF) (i : Nat) :
   (populatedReg x).bit i = populatedBit x.bit x.length i := by
  simp only [populatedReg, CodewordReg.bit, bitAt_ofPositions]
  by_cases h : 1 ≤ i ∧ i ≤ c.nMax
  · simp [h]
  · have : i ∉ ppos x.length := by
      intro hi
      have h1 := (mem_ppos_iff.1 hi).2
      obtain ⟨j, -, rfl⟩ := mem_ppos.1 hi
      have := Nat.one_le_two_pow (n := j)
      have := CodewordReg.WF.length_le hx; omega
    simp only [h, decide_false, Bool.false_and, populatedBit, this, if_false]
    have : i = 0 ∨ c.nMax < i := by omega
    rcases this with rfl | h
    · simp [CodewordReg.bit]
    · simp [CodewordReg.bit, bitAt_above x.cw h]

theorem populatedReg_above {x : CodewordReg c} (hx : x.WF) {i : Nat} (h : x.length < i) :
    (populatedReg x).bit i = false := by
  rw [populatedReg_bit x hx]
  have : i ∉ ppos x.length := fun hi => by have := (mem_ppos_iff.1 hi).2; omega
  simp [populatedBit, this, hx.zero_above i h]

/-- Every bit of the register FLIP leaves (42_mutation.md R120). -/
theorem flippedReg_bit (x : CodewordReg c) {pos : Nat} (h1 : 1 ≤ pos) (h2 : pos ≤ c.nMax) (i : Nat) :
  (flippedReg x pos).bit i = (x.bit i ^^ decide (i = pos)) := by
  simp only [flippedReg, CodewordReg.bit, bitAt_ofPositions]
  by_cases h : 1 ≤ i ∧ i ≤ c.nMax
  · simp [h]
  · have : i ≠ pos := by omega
    simp only [h, decide_false, Bool.false_and, this]
    have : i = 0 ∨ c.nMax < i := by omega
    rcases this with rfl | h
    · simp
    · simp [bitAt_above x.cw h]

/-- Toggling the same bit twice gives the register back. -/
theorem flippedReg_twice (x : CodewordReg c) (pos : Nat) : flippedReg (flippedReg x pos) pos = x := by
  have : (flippedReg (flippedReg x pos) pos).cw = x.cw := by
    apply eq_of_bitAt_eq
    intro i h1 h2
    simp [flippedReg, CodewordReg.bit, bitAt_ofPositions, h1, h2]
  cases x
  simp only [flippedReg] at *
  rw [this]

/-- A toggled bit changes the syndrome by its position (40_layout.md R91). -/
theorem flippedReg_syndrome {x : CodewordReg c} (hx : x.WF) {pos : Nat} (h1 : 1 ≤ pos) (h2 : pos ≤ x.length) :
    (flippedReg x pos).syndrome = x.syndrome ^^^ pos := by
  rw [CodewordReg.syndrome, CodewordReg.syndrome, ← syndromeValue_toggle x.bit h1 h2]
  exact syndromeValue_congr fun i _ _ => flippedReg_bit x h1 (h2.trans hx.length_le) i

/-! ### Checking the invariant of a state written out -/

/-- `CodewordReg.WF` as a check. -/
def CodewordReg.wfCheck (x : CodewordReg c) : Bool :=
  decide (x.cw.toNat < 2 ^ x.length) && (decide (x.st = .empty) == decide (x.length = 0)) &&
    match x.st with
    | .empty => true
    | .payload => decide (1 ≤ x.length ∧ x.length ≤ c.mMax)
    | .spaced =>
      ((positions c.mMax).any fun m => x.length == m + kreq m) && (ppos x.length).all fun p => !x.bit p
    | .populated => decide (1 ≤ x.length ∧ x.length ≤ c.nMax)

theorem CodewordReg.wf_of_check {x : CodewordReg c} (h : x.wfCheck = true) : x.WF := by
  obtain ⟨cw, len, st⟩ := x
  simp only [wfCheck, Bool.and_eq_true, decide_eq_true_eq, beq_iff_eq, decide_eq_decide] at h
  obtain ⟨⟨h1, h2⟩, h3⟩ := h
  refine ⟨fun i hi => ?_, h2, ?_, ?_, ?_, ?_⟩
  · simp only [bit, bitAt]
    rw [BitVec.getLsbD, Nat.testBit_eq_false_of_lt (lt_of_lt_of_le h1 (Nat.pow_le_pow_right (by omega) (by omega)))]
    simp
  · rintro rfl; simpa using h3
  · rintro rfl
    simp only [Bool.and_eq_true, List.any_eq_true, mem_positions, beq_iff_eq] at h3
    obtain ⟨⟨m, ⟨hm1, hm2⟩, hm3⟩, -⟩ := h3
    exact ⟨m, hm1, hm2, hm3⟩
  · rintro rfl p hp
    simp only [Bool.and_eq_true, List.all_eq_true, Bool.not_eq_true'] at h3
    exact h3.2 p hp
  · rintro rfl; simpa using h3

/-- `Arch.StatusWF` as a check. -/
def Arch.statusCheck (a : Arch c) : Bool :=
  (a.status.err == a.status.cause.isSome) && (a.status.err || decide (a.ecmd = 0)) &&
    (!a.status.sv || a.status.sz == decide (a.syn = 0)) && !(a.status.sz && a.status.soor) &&
    (a.status.sv || (decide (a.syn = 0) && !a.status.sz && !a.status.soor))

theorem Arch.statusWF_of_check {a : Arch c} (h : a.statusCheck = true) : a.StatusWF := by
  obtain ⟨r0, r1, syn, ⟨err, cause, sv, sz, soor⟩, ecmd⟩ := a
  simp only [statusCheck] at h
  constructor <;> cases err <;> cases cause <;> cases sv <;> cases sz <;> cases soor <;> simp_all

/-- A state that passes both checks meets the invariant. -/
theorem Arch.inv_of_check {a : Arch c} (h : (a.r0.wfCheck && a.r1.wfCheck && a.statusCheck) = true) : a.Inv := by
  simp only [Bool.and_eq_true] at h
  exact ⟨CodewordReg.wf_of_check h.1.1, CodewordReg.wf_of_check h.1.2, Arch.statusWF_of_check h.2⟩

end Sys2Proof.Machine
end

