-- ==== Sys2Proof/Laws/PerInstr.lean ====
section
/-! SUPPORT. Statements for all instructions, one lemma for each constructor of Instr. -/

namespace Sys2Proof.Laws

/-- The word of a well-formed command decodes to it. -/
def RoundTrip.Statement (i : Instr) : Prop := i.wellFormed = true → decode (encode i) = .command i

theorem RoundTrip.loadi (rd : Reg) : RoundTrip.Statement (.loadi rd) := by
  intro _
  simp [decode_fields, encode, rdOf_packFields, -BitVec.getLsbD_eq_getElem, immOf_packFields _ _ _ (Nat.zero_le 127)]

theorem RoundTrip.loadb (rd : Reg) (m : Nat) : RoundTrip.Statement (.loadb rd m) := by
  intro h
  have h' : m ≤ 127 := by simpa [Instr.wellFormed, fitsImm] using h
  simp [decode_fields, encode, rdOf_packFields, -BitVec.getLsbD_eq_getElem, immOf_packFields _ _ _ h']

theorem RoundTrip.loadc (rd : Reg) (n : Nat) : RoundTrip.Statement (.loadc rd n) := by
  intro h
  have h' : n ≤ 127 := by simpa [Instr.wellFormed, fitsImm] using h
  simp [decode_fields, encode, rdOf_packFields, -BitVec.getLsbD_eq_getElem, immOf_packFields _ _ _ h']

theorem RoundTrip.space (rd : Reg) : RoundTrip.Statement (.space rd) := by
  intro _
  simp [decode_fields, encode, rdOf_packFields, -BitVec.getLsbD_eq_getElem, immOf_packFields _ _ _ (Nat.zero_le 127)]

theorem RoundTrip.populate (rd : Reg) : RoundTrip.Statement (.populate rd) := by
  intro _
  simp [decode_fields, encode, rdOf_packFields, -BitVec.getLsbD_eq_getElem, immOf_packFields _ _ _ (Nat.zero_le 127)]

theorem RoundTrip.flip (rd : Reg) (pos : Nat) : RoundTrip.Statement (.flip rd pos) := by
  intro h
  have h' : pos ≤ 127 := by simpa [Instr.wellFormed, fitsImm] using h
  simp [decode_fields, encode, rdOf_packFields, -BitVec.getLsbD_eq_getElem, immOf_packFields _ _ _ h']

theorem RoundTrip.syndrome (rd : Reg) : RoundTrip.Statement (.syndrome rd) := by
  intro _
  simp [decode_fields, encode, rdOf_packFields, -BitVec.getLsbD_eq_getElem, immOf_packFields _ _ _ (Nat.zero_le 127)]

theorem RoundTrip.clone (rd rs : Reg) : RoundTrip.Statement (.clone rd rs) := by
  intro _
  simp [decode_fields, encode, rdOf_packFields, rsOf_packFields, -BitVec.getLsbD_eq_getElem,
    immOf_packFields _ _ _ (Nat.zero_le 127)]

theorem RoundTrip.clrerr : RoundTrip.Statement .clrerr := by
  intro _
  simp [decode_fields, encode, -BitVec.getLsbD_eq_getElem, immOf_packFields _ _ _ (Nat.zero_le 127)]

end Sys2Proof.Laws
end

