-- ==== Sys2Proof/Laws/Ports.lean ====
section
/-! SUPPORT. The bits of the CWOUT port. -/

namespace Sys2Proof.Machine

variable {c : Config}

/-- Bit `j` of CWOUT is position `LEN - j` of the codeword, and 0 from bit LEN on (20_memory.md R44). -/
theorem testBit_cwout (x : CodewordReg c) (h : x.length ≤ c.nMax) (j : Nat) :
    x.cwout.getLsbD j = (decide (j < x.length) && x.bit (x.length - j)) := by
  have hl : x.sequence.length = x.length := by simp [CodewordReg.sequence, positions]
  rw [CodewordReg.cwout, BitVec.getLsbD_ofNat, testBit_intOf, hl]
  by_cases hj : j < x.length
  · have : j < c.nMax := by omega
    simp only [this, hj, decide_true, Bool.true_and, CodewordReg.sequence, positions, List.getD]
    rw [List.getElem?_map, List.getElem?_range' (by omega)]
    simp
    congr 1
    omega
  · simp [hj]

end Sys2Proof.Machine
end

