-- ==== Sys2Proof/Tests/Slice0.lean ====
section
/-! SUPPORT. Tests on fixed values, taken from the words and tables of 30_encoding.md and 95_test_vectors.md, and for
each statement of Obligations.lean with hypotheses a state and operands that meet them. -/

namespace Sys2Proof.Tests

open Sys2Proof Sys2Proof.Machine

-- One theorem after another: the checks by the kernel run in one thread.
set_option Elab.async false

/-! ### Helpers -/

/-- A codeword register that holds `n` bits, written as the integer CWOUT shows. -/
def regOf (st : Lifecycle) (n v : Nat) : CodewordReg Config.reference :=
  loadedReg Config.reference (BitVec.ofNat 71 v) n st

/-- The empty register. -/
def none0 : CodewordReg Config.reference := CodewordReg.reset Config.reference

/-- A machine with `x` in r0, `y` in r1 and the rest as after reset, whose next transaction is `w` with din `d`, which
also stands at the ports already. -/
def ready (x y : CodewordReg Config.reference) (w : CommandWord) (d : Nat := 0) : State :=
  let p : PortSample Config.reference := ⟨w, BitVec.ofNat 71 d, false⟩
  ⟨{ Arch.reset Config.reference with r0 := x, r1 := y }, p, [p]⟩

/-- The same with a recorded fault: SEQUENCE on POPULATE r0. -/
def faulted (s : State) : State := { s with arch := s.arch.raiseFault 0x5000 .sequence }

/-- What the output ports show after an outcome, through `f`. -/
def seen {α : Type} (f : OutputPorts Config.reference → α) : Host.Outcome State Fault Refusal → Option α
  | .next t => some (f t.arch.outputs)
  | .fault _ => none
  | .refused _ => none

/-- The state code, length and CWOUT of r0. -/
def showR0 (o : OutputPorts Config.reference) : Nat × Nat × Nat := (o.st0.toNat, o.len0.toNat, o.cwout0.toNat)

/-- The state code, length and CWOUT of r1. -/
def showR1 (o : OutputPorts Config.reference) : Nat × Nat × Nat := (o.st1.toNat, o.len1.toNat, o.cwout1.toNat)

/-- SYN and STATUS. -/
def showSyn (o : OutputPorts Config.reference) : Nat × Nat := (o.syn.toNat, o.status.toNat)

/-- STATUS and ECMD. -/
def showFault (o : OutputPorts Config.reference) : Nat × Nat := (o.status.toNat, o.ecmd.toNat)

/-- The clean codeword of payload 1010. -/
def clean7 : CodewordReg Config.reference := regOf .populated 7 0x5A

/-- The clean codeword of 64 ones. -/
def clean71 : CodewordReg Config.reference := regOf .populated 71 0x7FFFFFFFFFFFFFFFFF

/-! ### WellFormed -/

theorem test_loadb_128_is_illformed : (Instr.loadb .r0 128).wellFormed = false := by decide
theorem test_loadc_128_is_illformed : (Instr.loadc .r0 128).wellFormed = false := by decide
theorem test_flip_128_is_illformed : (Instr.flip .r0 128).wellFormed = false := by decide
theorem test_flip_127_is_wellformed : (Instr.flip .r0 127).wellFormed = true := by decide

/-! ### Decoding: 30_encoding.md R60 to R68, 95_test_vectors.md section 8 -/

theorem test_decode_loadi : decode 0b0001100000000000 = .command (.loadi .r1) := by decide +kernel
theorem test_decode_loadb : decode 0b0010000001111111 = .command (.loadb .r0 127) := by decide +kernel
theorem test_decode_loadc : decode 0b0011000001000111 = .command (.loadc .r0 71) := by decide +kernel
theorem test_decode_space : decode 0b0100100000000000 = .command (.space .r1) := by decide +kernel
theorem test_decode_populate : decode 0b0101000000000000 = .command (.populate .r0) := by decide +kernel
theorem test_decode_flip : decode 0b0110100000000011 = .command (.flip .r1 3) := by decide +kernel
theorem test_decode_syndrome : decode 0b0111100000000000 = .command (.syndrome .r1) := by decide +kernel
theorem test_decode_clone_r1_r0 : decode 0b1000100000000000 = .command (.clone .r1 .r0) := by decide +kernel
theorem test_decode_clone_r0_r1 : decode 0b1000010000000000 = .command (.clone .r0 .r1) := by decide +kernel
theorem test_decode_clrerr : decode 0b1001000000000000 = .command .clrerr := by decide +kernel

/-- The illegal words of the table. -/
theorem test_decode_illegal :
    ([0x0000, 0x1001, 0x1080, 0x1400, 0x2880, 0x4C00, 0x6080, 0x7001, 0x8001, 0x8200, 0x9400, 0x9001, 0x9800, 0xA000,
      0xF7FF, 0xFFFF] : List CommandWord).all (fun w => decode w == .illegal) = true := by decide +kernel

theorem test_decodeTableWord : decodeTableWord 16 0x3007 = some (.loadc .r0 7) := by decide +kernel
theorem test_decodeTableWord_illegal : decodeTableWord 16 0xA000 = none := by decide +kernel

/-- Words written out from the patterns, against the encoder. -/
theorem test_encode :
    encode (.loadc .r1 71) = 0x3847 ∧ encode (.clone .r0 .r1) = 0x8400 ∧ encode .clrerr = 0x9000 := by decide +kernel

/-! ### The layout: 95_test_vectors.md section 2 -/

theorem test_kreq : [1, 4, 5, 11, 12, 57, 58, 64, 120, 121].map kreq = [2, 3, 4, 4, 5, 6, 7, 7, 7, 8] := by decide +kernel
theorem test_cover : cover 4 12 = [4, 5, 6, 7, 12] ∧ cover 1 7 = [1, 3, 5, 7] := by decide +kernel
theorem test_dpos : [1, 4, 5, 12, 27, 57, 58, 64].map dpos = [3, 7, 9, 17, 33, 63, 65, 71] := by decide +kernel
theorem test_configuration :
    (Config.reference.kMax, Config.reference.nMax, Config.reference.sw) = (7, 71, 7) := by decide +kernel
theorem test_xor_tree_figures : [1, 2, 4, 8, 16, 32, 64].map (xorTreeInputs · 71) = [36, 36, 36, 32, 32, 32, 8] ∧
    [1, 2, 4, 8, 16, 32, 64].map (xorTreeDepth · 71) = [6, 6, 6, 5, 5, 5, 3] := by decide +kernel

/-! ### One step of each command: 95_test_vectors.md sections 3 to 7 -/

theorem test_loadi : seen showR0 (step (ready none0 none0 0x1000 0xA)) = some (1, 4, 0xA) := by decide +kernel
theorem test_loadi_too_wide : seen showFault (step (ready none0 none0 0x1000 (2 ^ 64))) = some (0x07, 0x1000) := by
  decide +kernel
theorem test_loadb_keeps_leading_zeros : seen showR0 (step (ready none0 none0 0x2008 0xA)) = some (1, 8, 0xA) := by
  decide +kernel
theorem test_loadb_value_too_wide : seen showFault (step (ready none0 none0 0x2004 0x10)) = some (0x07, 0x2004) := by
  decide +kernel
theorem test_loadc_widest :
    seen showR0 (step (ready none0 none0 0x3047 0x400000000000000000)) = some (3, 71, 0x400000000000000000) := by
  decide +kernel
theorem test_loadc_72 : seen showFault (step (ready none0 none0 0x3048 0)) = some (0x07, 0x3048) := by decide +kernel
theorem test_space : seen showR0 (step (ready (regOf .payload 4 0xA) none0 0x4000)) = some (2, 7, 0x12) := by
  decide +kernel
theorem test_space_widest :
    seen showR0 (step (ready (regOf .payload 64 0xFFFFFFFFFFFFFFFF) none0 0x4000)) =
      some (2, 71, 0x177F7FFF7FFFFFFF7F) := by decide +kernel
theorem test_populate : seen showR0 (step (ready (regOf .spaced 7 0x12) none0 0x5000)) = some (3, 7, 0x5A) := by
  decide +kernel
theorem test_populate_12 : seen showR0 (step (ready (regOf .spaced 12 0x2EF) none0 0x5000)) = some (3, 12, 0xEEF) := by
  decide +kernel
theorem test_flip : seen showR1 (step (ready none0 clean7 0x6803)) = some (3, 7, 0x4A) := by decide +kernel
theorem test_flip_range : seen showFault (step (ready clean7 none0 0x6008)) = some (0x05, 0x6008) := by decide +kernel
theorem test_syndrome : seen showSyn (step (ready (regOf .populated 7 0x4A) none0 0x7000)) = some (3, 0x10) := by
  decide +kernel
theorem test_syndrome_out_of_range : seen showSyn (step (ready (regOf .populated 6 0x3F) none0 0x7000)) = some (7, 0x50) := by
  decide +kernel
theorem test_clone : seen showR1 (step (ready clean7 none0 0x8800)) = some (3, 7, 0x5A) := by decide +kernel
theorem test_clone_empty : seen showR0 (step (ready clean7 none0 0x8400)) = some (0, 0, 0) := by decide +kernel
theorem test_clrerr : seen showFault (step (faulted (ready none0 none0 0x9000))) = some (0x00, 0x0000) := by
  decide +kernel
theorem test_first_fault_wins : seen showFault (step (faulted (ready none0 none0 0xA000))) = some (0x09, 0x5000) := by
  decide +kernel
theorem test_illegal_before_sequence : seen showFault (step (ready none0 none0 0x6080)) = some (0x03, 0x6080) := by
  decide +kernel
theorem test_sequence_before_range : seen showFault (step (ready none0 none0 0x6000)) = some (0x09, 0x6000) := by
  decide +kernel

/-! ### The host's two placements -/

theorem test_withFetchWord : seen showR0 (step (State.reset.withFetchWord 16 0x2003)) = some (1, 3, 0) := by
  decide +kernel
theorem test_reset_is_idle : step State.reset = .next State.reset := rfl

/-! ### The assembler: 30_encoding.md R73 to R76, listing P6 of 95_test_vectors.md -/

theorem test_assemble_text :
    assembleText Config.reference "LOADB r1, 4, =0xA ; payload".toList = some [⟨0x2804, 0xA, false⟩] := by decide +kernel
theorem test_assemble_pseudo :
    (assembleText Config.reference "encode r0, =0xA".toList).map (·.map fun p => (p.cmd, p.din.toNat)) =
      some [(0x1000, 0xA), (0x4000, 0), (0x5000, 0)] := by decide +kernel
theorem test_assemble_refuses_128 : assembleText Config.reference "FLIP r0, 128".toList = none := by decide +kernel
theorem test_assemble_refuses_din : assembleText Config.reference "SPACE r0, =1".toList = none := by decide +kernel
theorem test_listing :
    parseListing Config.reference "0x6047  -                     FLIP r0, 71".toList = some ⟨0x6047, 0, false⟩ := by
  decide +kernel

/-! ### Witnesses: encoding -/

theorem test_witness_DecodeOfEncode :
    (Instr.loadb .r1 127).wellFormed = true ∧ (Instr.flip .r0 0).wellFormed = true ∧ Instr.clrerr.wellFormed = true := by
  decide
theorem test_witness_EncodeOfDecode : decode 0x8C00 = .command (.clone .r1 .r1) := by decide +kernel
theorem test_witness_IllegalWords_grounds :
    opcOf 0x0000 = 0x0 ∧ 0xA#4 ≤ opcOf 0xA000 ∧ zOf 0x2880 ≠ 0 ∧ (immOf 0x9001 ≠ 0 ∧ opcOf 0x9001 = 0x9) ∧
      (rsOf 0x4C00 = .r1 ∧ opcOf 0x4C00 ≠ 0x8) ∧ (rdOf 0x9800 = .r1 ∧ opcOf 0x9800 = 0x9) := by decide +kernel
theorem test_witness_AssembledLineDecodes :
    assembleLine Config.reference ⟨.loadc .r0 12, some 0xEAF⟩ = some ⟨0x300C, 0xEAF, false⟩ ∧
      assembleLine Config.reference ⟨.flip .r0 127, none⟩ = some ⟨0x607F, 0, false⟩ := by decide +kernel

/-! ### Witnesses: steps, reset and runs -/

theorem test_witness_StepRunsDecodedCommand :
    (ready none0 none0 0x1800 5).queue = [⟨0x1800, 5, false⟩] ∧ decode 0x1800 = .command (.loadi .r1) := by
  decide +kernel
theorem test_witness_StepRefusesIllegalWord :
    (ready clean7 none0 0x0000).queue = [⟨0x0000, 0, false⟩] ∧ decode 0x0000 = .illegal := by decide +kernel
theorem test_witness_ResetEventClearsAll :
    ({ ready clean7 none0 0 with queue := [⟨0x4000, 0, true⟩] } : State).queue = [⟨0x4000, 0, true⟩] ∧
      (⟨0x4000, 0, true⟩ : PortSample Config.reference).rst = true := by decide +kernel
theorem test_witness_IdleStepChangesNothing : State.reset.queue = [] := by decide
theorem test_witness_PlacedWordIsRunNext :
    0x9000 < 2 ^ 16 ∧ decodeTableWord 16 0x9000 = some .clrerr := by decide +kernel
theorem test_witness_StepIsOneTransaction :
    (ready clean7 none0 0xFFFF).queue = [⟨0xFFFF, 0, false⟩] ∧
      (⟨0xFFFF, 0, false⟩ : PortSample Config.reference).rst = false := by decide +kernel
theorem test_witness_ResetValues :
    1 ≤ 71 ∧ 71 ≤ Config.reference.nMax ∧ State.reset.arch.r1.bit 71 = false := by decide +kernel
theorem test_witness_RunAppliesStepInOrder :
    ∀ p ∈ [(⟨0x1000, 0xA, false⟩ : PortSample Config.reference), ⟨0x4000, 0, false⟩], p.rst = false := by decide +kernel

/-- States of every lifecycle meet the invariant: a payload of 1 and of 64 bits, spaced and populated words of 3 and of
71 bits, received words of 1, 2 and 71 bits, a recorded fault, a syndrome. -/
theorem test_inv_states :
    (ready none0 (regOf .payload 1 0) 0).Inv ∧ (ready (regOf .payload 64 0xFFFFFFFFFFFFFFFF) none0 0).Inv ∧
      (ready (regOf .spaced 3 1) (regOf .spaced 71 0x177F7FFF7FFFFFFF7F) 0).Inv ∧ (ready clean7 clean71 0).Inv ∧
      (ready (regOf .populated 1 1) (regOf .populated 2 3) 0).Inv ∧ (faulted (ready clean7 none0 0)).Inv :=
  ⟨Arch.inv_of_check (by decide +kernel), Arch.inv_of_check (by decide +kernel), Arch.inv_of_check (by decide +kernel),
    Arch.inv_of_check (by decide +kernel), Arch.inv_of_check (by decide +kernel), Arch.inv_of_check (by decide +kernel)⟩

theorem test_witness_StepKeepsInvariant :
    ∃ t, (ready clean7 none0 0x7000).Inv ∧ step (ready clean7 none0 0x7000) = .next t :=
  ⟨_, Arch.inv_of_check (by decide +kernel), rfl⟩

/-- The narrowest configuration, M_MAX = 1. -/
def smallest : Config := ⟨1, by decide, by decide⟩

/-- The widest configuration, M_MAX = 120. -/
def widest : Config := ⟨120, by decide, by decide⟩

theorem test_witness_EveryConfigurationKeepsInvariant :
    (Arch.reset smallest).Inv ∧
      ({ Arch.reset widest with r0 := loadedReg widest 1 120 .payload } : Arch widest).Inv :=
  ⟨Arch.inv_of_check (by decide +kernel), Arch.inv_of_check (by decide +kernel)⟩

/-! ### Witnesses: what each command does, with the values where its clauses meet -/

theorem test_witness_LoadiLoadsMinimalWidth :
    mw (ready none0 none0 0x1000 0).port.din.toNat ≤ Config.reference.mMax ∧
      mw (ready none0 none0 0x1000 (2 ^ 64 - 1)).port.din.toNat = Config.reference.mMax ∧
      Config.reference.mMax < mw (ready none0 none0 0x1000 (2 ^ 64)).port.din.toNat := by decide +kernel
theorem test_witness_LoadbLoadsExplicitLength :
    (1 ≤ 1 ∧ 1 ≤ Config.reference.mMax ∧ (ready none0 none0 0x2001 1).port.din.toNat >>> 1 = 0) ∧
      (64 ≤ Config.reference.mMax ∧ (ready none0 none0 0x2040 (2 ^ 64 - 1)).port.din.toNat >>> 64 = 0) ∧
      0 < 1 ∧ Config.reference.mMax < 65 ∧ (ready none0 none0 0x2004 0x10).port.din.toNat >>> 4 ≠ 0 := by decide +kernel
theorem test_witness_LoadcLoadsReceivedCodeword :
    (1 ≤ 1 ∧ 1 ≤ Config.reference.nMax ∧ (ready none0 none0 0x3001 1).port.din.toNat >>> 1 = 0) ∧
      (71 ≤ Config.reference.nMax ∧ (ready none0 none0 0x3047 (2 ^ 71 - 1)).port.din.toNat >>> 71 = 0) ∧
      0 < 1 ∧ Config.reference.nMax < 72 ∧ (ready none0 none0 0x3007 0x80).port.din.toNat >>> 7 ≠ 0 := by decide +kernel
theorem test_witness_SpaceInsertsParitySlots :
    (ready (regOf .payload 64 (2 ^ 64 - 1)) none0 0x4000).Inv ∧
      ((ready (regOf .payload 64 (2 ^ 64 - 1)) none0 0x4000).arch.reg .r0).st = .payload ∧
      ((ready (regOf .payload 64 (2 ^ 64 - 1)) none0 0x4000).arch.reg .r1).st ≠ .payload :=
  ⟨Arch.inv_of_check (by decide +kernel), by decide +kernel, by decide +kernel⟩
theorem test_witness_PopulateWritesParity :
    (ready (regOf .spaced 7 0x12) clean7 0x5000).Inv ∧
      ((ready (regOf .spaced 7 0x12) clean7 0x5000).arch.reg .r0).st = .spaced ∧
      ((ready (regOf .spaced 7 0x12) clean7 0x5000).arch.reg .r1).st ≠ .spaced :=
  ⟨Arch.inv_of_check (by decide +kernel), by decide +kernel, by decide +kernel⟩

/-- Positions 1 and LEN complete; 0 and LEN + 1 are out of range; EMPTY and SPACED are SEQUENCE. -/
theorem test_witness_FlipTogglesOneBit :
    (ready clean7 (regOf .payload 1 0) 0).Inv ∧
      ((ready clean7 (regOf .payload 1 0) 0).arch.reg .r0).st = .populated ∧
      ((ready clean7 (regOf .payload 1 0) 0).arch.reg .r0).length = 7 ∧
      ((ready clean7 (regOf .payload 1 0) 0).arch.reg .r1).st = .payload ∧
      ((ready clean7 (regOf .payload 1 0) 0).arch.reg .r1).length = 1 ∧
      ((ready none0 (regOf .spaced 7 0x12) 0).arch.reg .r0).st = .empty ∧
      ((ready none0 (regOf .spaced 7 0x12) 0).arch.reg .r1).st = .spaced :=
  ⟨Arch.inv_of_check (by decide +kernel), by decide +kernel, by decide +kernel, by decide +kernel, by decide +kernel,
    by decide +kernel, by decide +kernel⟩
theorem test_witness_FlipTogglesOneBit_edges :
    seen showR0 (step (ready clean7 none0 0x6001)) = some (3, 7, 0x1A) ∧
      seen showR0 (step (ready clean7 none0 0x6007)) = some (3, 7, 0x5B) ∧
      seen showFault (step (ready clean7 none0 0x6000)) = some (0x05, 0x6000) := by decide +kernel
theorem test_witness_SyndromeWritesSynAndFlags :
    (ready (regOf .populated 2 3) none0 0x7000).Inv ∧
      ((ready (regOf .populated 2 3) none0 0x7000).arch.reg .r0).st = .populated ∧
      ((ready (regOf .populated 2 3) none0 0x7000).arch.reg .r1).st ≠ .populated :=
  ⟨Arch.inv_of_check (by decide +kernel), by decide +kernel, by decide +kernel⟩

theorem test_witness_CloneCopiesRegister :
    seen showR1 (step (ready clean7 clean71 0x8C00)) = some (3, 71, 0x7FFFFFFFFFFFFFFFFF) ∧
      decode 0x8C00 = .command (.clone .r1 .r1) := by decide +kernel

/-! ### Witnesses: frames and faults -/

theorem test_witness_CommandFrame :
    (∃ t, exec (.loadi .r0) (faulted (ready none0 clean7 0x1000 3)) = .next t) ∧
      destinationOf (.loadi .r0) ≠ some .r1 ∧ (∀ rd, Instr.loadi .r0 ≠ .syndrome rd) ∧ Instr.loadi .r0 ≠ .clrerr ∧
      (faulted (ready none0 clean7 0x1000 3)).arch.status.err = true :=
  ⟨⟨_, rfl⟩, by decide, by simp, by simp, by decide +kernel⟩
theorem test_witness_FaultsArePrecise_command :
    decode 0x4000 = .command (.space .r0) ∧
      space .r0 (ready none0 clean7 0x4000).arch = .error .sequence ∧ decode 0xA000 = .illegal :=
  ⟨by decide +kernel, rfl, by decide +kernel⟩
theorem test_witness_FaultsArePrecise :
    ∃ t, step (ready none0 clean7 0x4000) = .next t ∧ (ready none0 clean7 0x4000).arch.status.err = false ∧
      t.arch.status.err = true :=
  ⟨_, rfl, by decide +kernel, by decide +kernel⟩
theorem test_witness_ErrStaysUntilCleared :
    ∃ t, step (faulted (ready none0 none0 0x9000)) = .next t ∧
      (faulted (ready none0 none0 0x9000)).arch.outputs.errO = true ∧ t.arch.outputs.errO = false :=
  ⟨_, rfl, by decide +kernel, by decide +kernel⟩
theorem test_witness_OnlySyndromeWritesSyn :
    ∃ t, step (ready (regOf .populated 7 0x4A) none0 0x7000) = .next t ∧
      t.arch.syn ≠ (ready (regOf .populated 7 0x4A) none0 0x7000).arch.syn :=
  ⟨_, rfl, by decide +kernel⟩
theorem test_witness_SequenceConditions :
    ∃ t u, (ready (regOf .spaced 7 0x12) none0 0).Inv ∧ (ready (regOf .spaced 7 0x12) none0 0).FaultFree ∧
      exec (.flip .r0 0) (ready (regOf .spaced 7 0x12) none0 0) = .next t ∧ t.arch.status.cause = some .sequence ∧
      exec (.populate .r0) (ready (regOf .spaced 7 0x12) none0 0) = .next u ∧ u.arch.status.cause = none :=
  ⟨_, _, Arch.inv_of_check (by decide +kernel), rfl, rfl, by decide +kernel, rfl, by decide +kernel⟩
theorem test_witness_RangeAndLengthConditions :
    ∃ t u, (ready clean7 none0 0 0x80).Inv ∧ (ready clean7 none0 0 0x80).FaultFree ∧
      exec (.flip .r0 8) (ready clean7 none0 0 0x80) = .next t ∧ t.arch.status.cause = some .range ∧
      exec (.loadc .r1 7) (ready clean7 none0 0 0x80) = .next u ∧ u.arch.status.cause = some .length :=
  ⟨_, _, Arch.inv_of_check (by decide +kernel), rfl, rfl, by decide +kernel, rfl, by decide +kernel⟩
theorem test_witness_DinIgnoredExceptByLoads :
    (decode 0x7000 = .command (.syndrome .r0) ∧ (Instr.syndrome .r0).readsDin = false) ∧ decode 0xA000 = .illegal := by
  decide +kernel

/-! ### Witnesses: the layout algebra -/

theorem test_witness_CoverageGroups : 4 = 2 ^ 2 ∧ 4 ≤ 4 ∧ 4 ∈ cover 4 4 ∧ cover 3 7 = [3, 7] := by decide +kernel
theorem test_witness_SyndromeIsWeightedSum : 2 < bitlen 7 ∧ parityVec clean7.bit 7 = [false, false, false] := by
  decide +kernel
theorem test_witness_BitlenBrackets : 1 ≤ 8 ∧ bitlen 8 = 4 ∧ bitlen 7 = 3 ∧ bitlen 1 = 1 := by decide +kernel
theorem test_witness_KreqIsSmallest : kreq 58 = 7 ∧ 7 + 58 + 1 ≤ 2 ^ 7 ∧ 6 < 7 ∧ 2 ^ 6 < 6 + 58 + 1 := by decide +kernel
theorem test_witness_ParityFormulasAgree : 1 ≤ 1 ∧ ppos (1 + kreq 1) = [1, 2] ∧ ppos (4 + kreq 4) = [1, 2, 4] := by
  decide +kernel
theorem test_witness_CoverageProperties :
    2 ∈ ppos 7 ∧ 4 ∈ ppos 7 ∧ 1 ≤ 3 ∧ 3 ≤ 7 ∧ isPow2 3 = false := by decide +kernel
theorem test_witness_DataPositionMap : isPow2 3 = false ∧ dpos 1 = 3 ∧ isPow2 71 = false ∧ dpos 64 = 71 := by
  decide +kernel
theorem test_witness_AnyXorTreeGivesParity :
    (xorTreeLeaves (.node (.node (.leaf 7) (.leaf 2)) (.node (.leaf 6) (.leaf 3)))).Perm (cover 2 7) := by decide +kernel
theorem test_witness_CodecRoundTrip : 1 ≤ 1 ∧ 0 < 2 ^ 1 ∧ intOf (bitsOf 1 0) = 0 ∧ intOf (bitsOf 4 10) = 10 := by
  decide +kernel
theorem test_witness_LengthsFitTheirRegisters :
    1 ≤ widest.mMax ∧ widest.mMax + kreq widest.mMax = 127 ∧ smallest.mMax + kreq smallest.mMax = 3 := by decide +kernel

/-! ### Witnesses: ports -/

/-- LEN at N_MAX and at 0; the two CWOUT ports are told apart (X1 and P6 of 95_test_vectors.md). -/
theorem test_witness_OutputPortLayout :
    ((ready clean71 none0 0).arch.reg .r0).length = Config.reference.nMax ∧
      ((ready clean71 none0 0).arch.reg .r1).length = 0 ∧
      (ready clean7 clean71 0).arch.outputs.cwout0 = 0x5A ∧
      (ready clean7 clean71 0).arch.outputs.cwout1 = 0x7FFFFFFFFFFFFFFFFF := by decide +kernel

theorem test_witness_CwoutReadsCodeword : clean7.WF ∧ 1 ≤ 7 ∧ 7 ≤ clean7.length :=
  ⟨CodewordReg.wf_of_check (by decide +kernel), by decide, by decide +kernel⟩
theorem test_witness_CwoutAndLenDetermineCodeword :
    (regOf .payload 4 0xA).WF ∧ (regOf .populated 4 0xA).WF ∧ (regOf .payload 4 0xA).len = (regOf .populated 4 0xA).len ∧
      (regOf .payload 4 0xA).cwout = (regOf .populated 4 0xA).cwout :=
  ⟨CodewordReg.wf_of_check (by decide +kernel), CodewordReg.wf_of_check (by decide +kernel), by decide +kernel,
    by decide +kernel⟩
theorem test_witness_CwoutAfterLoadIsDin :
    (mw (ready none0 none0 0x1000 10).port.din.toNat ≤ Config.reference.mMax ∧
      ∃ t, exec (.loadi .r0) (ready none0 none0 0x1000 10) = .next t) ∧
      ((ready none0 none0 0x2004 10).port.din.toNat < 2 ^ 4 ∧
        ∃ t, exec (.loadb .r0 4) (ready none0 none0 0x2004 10) = .next t) ∧
      ((ready none0 none0 0x3047 (2 ^ 71 - 1)).port.din.toNat < 2 ^ 71 ∧
        ∃ t, exec (.loadc .r0 71) (ready none0 none0 0x3047 (2 ^ 71 - 1)) = .next t) :=
  ⟨⟨by decide +kernel, _, rfl⟩, ⟨by decide +kernel, _, rfl⟩, by decide +kernel, _, rfl⟩
theorem test_witness_LoadcOfCwoutReproduces :
    (ready none0 clean7 0x3007 0x5A).Inv ∧ ((ready none0 clean7 0x3007 0x5A).arch.reg .r1).st = .populated ∧
      (ready none0 clean7 0x3007 0x5A).port.din = ((ready none0 clean7 0x3007 0x5A).arch.reg .r1).cwout :=
  ⟨Arch.inv_of_check (by decide +kernel), by decide +kernel, by decide +kernel⟩
theorem test_witness_LoadbAtMinimalWidthIsLoadi :
    (ready none0 none0 0x1000 0).port.din.toNat < 2 ^ Config.reference.mMax ∧
      (ready none0 none0 0x1000 (2 ^ 64 - 1)).port.din.toNat < 2 ^ Config.reference.mMax := by decide +kernel

/-! ### Witnesses: encoding, error location and correction -/

theorem test_witness_PayloadLengthIsDerived :
    (ready (regOf .payload 58 1) none0 0).Inv ∧ ((ready (regOf .payload 58 1) none0 0).arch.reg .r0).st = .payload ∧
      (regOf .empty 0 0).st = .empty ∧ (regOf .spaced 7 0x12).payloadLength = 4 ∧ clean71.payloadLength = 64 :=
  ⟨Arch.inv_of_check (by decide +kernel), by decide +kernel, by decide +kernel, by decide +kernel, by decide +kernel⟩
theorem test_witness_EncoderFunction :
    (1 ≤ 1 ∧ 1 ≤ smallest.mMax ∧ 0 < 2 ^ 1) ∧ (64 ≤ Config.reference.mMax ∧ 2 ^ 64 - 1 < 2 ^ 64) ∧
      mw 0xA = 4 ∧ mw 0xA ≤ Config.reference.mMax := by decide +kernel

/-- ENCODE r0, =0xA gives 1011010 (X1 of 95_test_vectors.md). -/
theorem test_encoder_function :
    (assembleSource Config.reference (.encode .r0 0xA)).map
      (fun ps => ((Arch.reset Config.reference).presentAll ps).r0.cwout) = some 0x5A := by decide +kernel
theorem test_witness_PopulatedCodewordIsClean :
    ∃ t, (ready (regOf .spaced 7 0x12) none0 0x5000).Inv ∧
      ((ready (regOf .spaced 7 0x12) none0 0x5000).arch.reg .r0).st = .spaced ∧
      exec (.populate .r0) (ready (regOf .spaced 7 0x12) none0 0x5000) = .next t :=
  ⟨_, Arch.inv_of_check (by decide +kernel), by decide +kernel, rfl⟩

/-- Positions 1 and LEN, for codewords of 7 and of 71 bits. -/
theorem test_witness_SingleErrorIsLocated :
    (ready clean7 clean71 0).Inv ∧ clean7.Clean ∧ 1 ≤ 7 ∧ clean7.length = 7 ∧ clean71.Clean ∧ clean71.length = 71 :=
  ⟨Arch.inv_of_check (by decide +kernel), ⟨by decide +kernel, by decide +kernel⟩, by decide, by decide +kernel,
    ⟨by decide +kernel, by decide +kernel⟩, by decide +kernel⟩
theorem test_witness_HostCorrectionRestores :
    ∃ t u, (ready clean7 none0 0).Inv ∧ ((ready clean7 none0 0).arch.reg .r0).Clean ∧
      exec (.flip .r0 3) (ready clean7 none0 0) = .next t ∧ exec (.syndrome .r0) t = .next u :=
  ⟨_, _, Arch.inv_of_check (by decide +kernel), ⟨by decide +kernel, by decide +kernel⟩, rfl, rfl⟩
theorem test_witness_FlipTwiceRestoresState :
    ((ready clean7 (regOf .payload 4 0xA) 0).arch.reg .r0).st = .populated ∧
      ((ready clean7 (regOf .payload 4 0xA) 0).arch.reg .r1).st = .payload ∧ 1 ≤ 4 ∧
      4 ≤ ((ready clean7 (regOf .payload 4 0xA) 0).arch.reg .r1).length := by decide +kernel
theorem test_witness_SeveralErrorsGiveXorOfPositions_run :
    (ready clean7 none0 0).arch.Inv ∧ ((ready clean7 none0 0).arch.reg .r0).Clean ∧
      ∀ p ∈ [1, 2, 7], 1 ≤ p ∧ p ≤ ((ready clean7 none0 0).arch.reg .r0).length :=
  ⟨Arch.inv_of_check (by decide +kernel), ⟨by decide +kernel, by decide +kernel⟩, by decide +kernel⟩
theorem test_witness_SeveralErrorsGiveXorOfPositions :
    (ready clean7 none0 0).Inv ∧ ((ready clean7 none0 0).arch.reg .r0).Clean ∧ 1 ≤ 1 ∧ 1 ≠ 7 ∧
      7 ≤ ((ready clean7 none0 0).arch.reg .r0).length :=
  ⟨Arch.inv_of_check (by decide +kernel), ⟨by decide +kernel, by decide +kernel⟩, by decide, by decide, by decide +kernel⟩

end Sys2Proof.Tests
end

section
/-! The codec of 00_scope.md R16: `int` as a weighted sum, and `bits_L` as its right inverse. -/

namespace Sys2Proof.Machine

/-! ### The weighted sum -/

/-- The sum of `s[i] * 2^(L-i)` over the Bits of a sequence of length `L` (R16), with `i` counted from 0. -/
def weightedSum (s : List Bit) : Nat :=
  ((List.range s.length).map fun i => (s.getD i false).toNat * 2 ^ (s.length - (i + 1))).sum

/-- One more Bit at the end doubles every weight before it and has weight 1 itself. -/
theorem weightedSum_snoc (s : List Bit) (b : Bit) : weightedSum (s ++ [b]) = 2 * weightedSum s + b.toNat := by
  have hterm : ∀ i ∈ List.range s.length,
      ((s ++ [b]).getD i false).toNat * 2 ^ (s.length + 1 - (i + 1)) =
        2 * ((s.getD i false).toNat * 2 ^ (s.length - (i + 1))) := by
    intro i hi
    have hi : i < s.length := List.mem_range.1 hi
    rw [List.getD_append _ _ _ _ hi, show s.length + 1 - (i + 1) = s.length - (i + 1) + 1 by omega, Nat.pow_succ]
    ring
  rw [weightedSum, List.length_append, List.length_singleton, List.range_succ, List.map_append, List.sum_append,
    List.map_congr_left hterm, List.sum_map_mul_left, weightedSum]
  simp

/-- Folding by shift and OR computes the weighted sum. -/
theorem intOf_eq_weightedSum (s : List Bit) : intOf s = weightedSum s := by
  induction s using List.reverseRecOn with
  | nil => rfl
  | append_singleton s b ih => rw [intOf_snoc, weightedSum_snoc, ih]

/-! ### Decoding -/

@[simp] theorem length_bitsOf (L v : Nat) : (bitsOf L v).length = L := by simp [bitsOf, positions]

/-- Element `k`, counted from 0, of `bits_L(v)` is bit `L - (k + 1)` of `v`. -/
theorem bitsOf_getElem? {L k : Nat} (v : Nat) (hk : k < L) :
    (bitsOf L v)[k]? = some (v.testBit (L - (k + 1))) := by
  simp [bitsOf, positions, hk, Nat.add_comm 1 k]

/-- `int` of `bits_L(v)` keeps the low `L` bits of `v`. -/
theorem testBit_intOf_bitsOf (L v j : Nat) : (intOf (bitsOf L v)).testBit j = (decide (j < L) && v.testBit j) := by
  rw [testBit_intOf, length_bitsOf]
  by_cases hj : j < L
  · rw [List.getD, bitsOf_getElem? v (by omega), Option.getD_some, show L - (L - (j + 1) + 1) = j by omega]
  · simp [hj]

theorem intOf_bitsOf {L v : Nat} (h : v < 2 ^ L) : intOf (bitsOf L v) = v := by
  apply Nat.eq_of_testBit_eq
  intro j
  rw [testBit_intOf_bitsOf]
  by_cases hj : j < L
  · simp [hj]
  · have hv : v < 2 ^ j := h.trans_le (Nat.pow_le_pow_right (by omega) (by omega))
    simp [hj, Nat.testBit_lt_two_pow hv]

/-- Settles O46: the weighted sum obeys the fold's own recursion, and `int(bits_L(v))` agrees with `v` bit by bit. -/
theorem codecRoundTrip : Obligations.CodecRoundTrip := by
  unfold Obligations.CodecRoundTrip
  refine ⟨intOf_eq_weightedSum, fun L v _ hv => ⟨length_bitsOf L v, fun i h1 hi => ?_, intOf_bitsOf hv⟩⟩
  rw [bitsOf_getElem? v (by omega), Nat.sub_add_cancel h1]

end Sys2Proof.Machine
end

section
/-! The registers of 10_state.md: their values after reset (R39), what the output ports show of them (20_memory.md
R42, R44), and the payload length that LEN and ST give (R27). -/

namespace Sys2Proof.Machine

variable {c : Config}

/-! ### Reset -/

@[simp] theorem CodewordReg.reset_bit (i : Nat) : (CodewordReg.reset c).bit i = false := by
  simp [CodewordReg.reset, CodewordReg.bit, bitAt]

/-! ### CWOUT as an integer -/

/-- The integer of a sequence has no more binary digits than the sequence has Bits. -/
theorem intOf_lt_two_pow_length (s : List Bit) : intOf s < 2 ^ s.length := by
  refine Nat.lt_pow_two_of_testBit _ fun j hj => ?_
  simp [testBit_intOf, Nat.not_lt.2 hj]

@[simp] theorem CodewordReg.length_sequence (x : CodewordReg c) : x.sequence.length = x.length := by
  simp [CodewordReg.sequence, positions]

/-- Element `k` of the sequence, counted from 0, is the bit at position `k + 1`. -/
theorem CodewordReg.sequence_getElem? (x : CodewordReg c) {k : Nat} (hk : k < x.length) :
    x.sequence[k]? = some (x.bit (k + 1)) := by
  simp [CodewordReg.sequence, positions, hk, Nat.add_comm 1 k]

/-- A codeword that fits its register is shown whole. -/
theorem CodewordReg.toNat_cwout {x : CodewordReg c} (h : x.length ≤ c.nMax) : x.cwout.toNat = intOf x.sequence := by
  have hlt : intOf x.sequence < 2 ^ x.length := by simpa using intOf_lt_two_pow_length x.sequence
  rw [CodewordReg.cwout, BitVec.toNat_ofNat,
    Nat.mod_eq_of_lt (hlt.trans_le (Nat.pow_le_pow_right (by decide) h))]

/-- The sum of R44: position `i` has the weight `2^(LEN - i)`. -/
theorem CodewordReg.toNat_cwout_eq_sum {x : CodewordReg c} (h : x.length ≤ c.nMax) :
    x.cwout.toNat =
      ((List.range x.length).map fun i => (x.bit (i + 1)).toNat * 2 ^ (x.length - (i + 1))).sum := by
  rw [CodewordReg.toNat_cwout h, intOf_eq_weightedSum, weightedSum, CodewordReg.length_sequence]
  refine congrArg List.sum (List.map_congr_left fun i hi => ?_)
  rw [List.getD, x.sequence_getElem? (List.mem_range.1 hi), Option.getD_some]

/-- The inverse of R44: a codeword bit is read back from CWOUT. -/
theorem CodewordReg.bit_eq_getLsbD_cwout {x : CodewordReg c} (h : x.length ≤ c.nMax) {i : Nat} (h1 : 1 ≤ i)
    (hi : i ≤ x.length) : x.bit i = x.cwout.getLsbD (x.length - i) := by
  rw [testBit_cwout x h, Nat.sub_sub_self hi]
  simp [show x.length - i < x.length by omega]

/-! ### STATUS as a word -/

/-- The layout of STATUS (R30, R34): ERR in bit 0, CAUSE in bits 3:1, SV, SZ and SOOR in bits 4 to 6, and no
other bit. -/
theorem statusWord_getLsbD (x : Status) (j : Nat) :
    (statusWord x).getLsbD j =
      if j = 0 then x.err else if j < 4 then (causeCode x.cause).getLsbD (j - 1)
      else if j = 4 then x.sv else if j = 5 then x.sz else decide (j = 6) && x.soor := by
  rw [statusWord]
  repeat rw [BitVec.getLsbD_append]
  match j with
  | 0 | 1 | 2 | 3 | 4 | 5 | 6 | 7 | _ + 8 => simp [-BitVec.getLsbD_eq_getElem]

theorem statusWord_cause (x : Status) : (statusWord x).extractLsb' 1 3 = causeCode x.cause := by
  apply BitVec.eq_of_getLsbD_eq
  intro i hi
  rw [BitVec.getLsbD_extractLsb', statusWord_getLsbD]
  simp [hi, show 1 + i < 4 by omega, -BitVec.getLsbD_eq_getElem]

/-! ### The payload length -/

theorem CodewordReg.payloadLength_of_empty {x : CodewordReg c} (h : x.st = .empty) : x.payloadLength = 0 := by
  simp [CodewordReg.payloadLength, h]

theorem CodewordReg.payloadLength_of_payload {x : CodewordReg c} (h : x.st = .payload) :
    x.payloadLength = x.length := by
  simp [CodewordReg.payloadLength, h]

theorem CodewordReg.payloadLength_of_encoded {x : CodewordReg c} (h : x.st = .spaced ∨ x.st = .populated) :
    x.payloadLength = x.length - bitlen x.length := by
  rcases h with h | h <;> simp [CodewordReg.payloadLength, h]

/-- In a register of an encoded length `m + kreq(m)` the payload length is `m` again. -/
theorem CodewordReg.payloadLength_of_encoded_length {x : CodewordReg c} {m : Nat} (hm : 1 ≤ m)
    (h : x.st = .spaced ∨ x.st = .populated) (hlen : x.length = m + kreq m) :
    x.payloadLength = m ∧ bitlen x.length = kreq x.payloadLength := by
  have hbit : bitlen x.length = kreq m := by rw [hlen, bitlen_encoded_length hm]
  have hpay : x.payloadLength = m := by rw [payloadLength_of_encoded h, hbit, hlen, Nat.add_sub_cancel]
  exact ⟨hpay, by rw [hbit, hpay]⟩

/-! ### SPACE and POPULATE -/

theorem exec_space_of_payload {rd : Reg} {s : State} (h : (s.arch.reg rd).st = .payload) :
    exec (.space rd) s = .next { s with arch := s.arch.setReg rd (spacedReg (s.arch.reg rd)) } :=
  exec_of_ok (space_ok h)

theorem exec_populate_of_spaced {rd : Reg} {s : State} (h : (s.arch.reg rd).st = .spaced) :
    exec (.populate rd) s = .next { s with arch := s.arch.setReg rd (populatedReg (s.arch.reg rd)) } :=
  exec_of_ok (populate_ok h)

@[simp] theorem populatedReg_length (x : CodewordReg c) : (populatedReg x).length = x.length := rfl

@[simp] theorem populatedReg_st (x : CodewordReg c) : (populatedReg x).st = .populated := rfl

/-! ### The obligations -/

/-- Settles O54: SPACE makes the length `m + kreq(m)`, POPULATE leaves it, and such a length gives `m` back. -/
theorem payloadLengthIsDerived : Obligations.PayloadLengthIsDerived := by
  unfold Obligations.PayloadLengthIsDerived
  refine ⟨fun c x => ⟨x.payloadLength_of_empty, x.payloadLength_of_payload, x.payloadLength_of_encoded⟩, ?_⟩
  intro rd s hinv hst
  obtain ⟨hm, hmax⟩ := (Arch.Inv.reg hinv rd).payload_length hst
  obtain ⟨hlen, hspaced, -, -⟩ := spacedReg_holds hmax
  rw [CodewordReg.payloadLength_of_payload hst]
  obtain ⟨ht, htbit⟩ := CodewordReg.payloadLength_of_encoded_length hm (.inl hspaced) hlen
  obtain ⟨hu, hubit⟩ := CodewordReg.payloadLength_of_encoded_length hm
    (.inr (populatedReg_st _)) ((populatedReg_length _).trans hlen)
  refine ⟨_, _, exec_space_of_payload hst, exec_populate_of_spaced (by rw [Arch.reg_setReg, hspaced]), ?_⟩
  simp only [Arch.reg_setReg]
  exact ⟨ht, hu, htbit, hubit⟩

/-- Settles O53: CWOUT by the codec, STATUS by its layout; every other port is its register's value or code. -/
theorem outputPortLayout : Obligations.OutputPortLayout := by
  unfold Obligations.OutputPortLayout
  intro c a
  refine ⟨rfl, rfl, fun r h => ⟨CodewordReg.toNat_cwout_eq_sum h, fun i => CodewordReg.bit_eq_getLsbD_cwout h⟩,
    rfl, rfl, rfl, rfl, rfl, rfl, rfl, rfl, rfl, rfl, rfl, statusWord_getLsbD _ 0, statusWord_cause _,
    statusWord_getLsbD _ 4, statusWord_getLsbD _ 5, statusWord_getLsbD _ 6, statusWord_getLsbD _ 7, rfl, rfl, rfl,
    rfl, rfl⟩

/-- Settles O15: no bit of a reset register is set at any position; every other element is 0 as written. -/
theorem resetValues : Obligations.ResetValues := by
  unfold Obligations.ResetValues
  exact ⟨fun i _ _ => ⟨CodewordReg.reset_bit i, CodewordReg.reset_bit i⟩,
    rfl, rfl, rfl, rfl, rfl, rfl, rfl, rfl, rfl, rfl, rfl, rfl⟩

end Sys2Proof.Machine
end

section
/-! The output ports of 20_memory.md as they follow the state: `err_o` is a level that only CLRERR or reset takes back
to 0 (R47), and CWOUT is the codeword with position 1 at its most significant bit (R44). -/

namespace Sys2Proof.Machine

variable {c : Config}

/-! ### Commands and ERR -/

/-- The row of CLRERR leaves no bit of the word free (R68): 0x9000 is its only word. -/
theorem eq_0x9000_of_decode_eq_clrerr {w : CommandWord} (h : decode w = .command .clrerr) : w = 0x9000 := by
  rw [decode_eq] at h
  repeat' split at h
  all_goals cases h
  rename_i hrow -- the other rows give another command
  exact (BitVec.and_allOnes (x := w)).symm.trans hrow

/-- A command other than CLRERR that completes leaves ERR as it was. -/
theorem perform_ok_err {i : Instr} {din : BitVec c.nMax} {a a' : Arch c} (h : perform i din a = .ok a')
    (hi : i ≠ .clrerr) : a'.status.err = a.status.err := by
  obtain ⟨rd, x, -, rfl⟩ | ⟨rd, -, -, rfl⟩ | ⟨rfl, -⟩ := perform_ok_cases h
  · rw [Arch.setReg_status]
  · exact syndromeFlags_err _ _ _
  · exact absurd rfl hi

/-- A command other than CLRERR leaves a raised ERR raised, whether it completes or faults. -/
theorem Arch.commit_perform_err {a : Arch c} (hone : a.status.err = true) {i : Instr} (hi : i ≠ .clrerr)
    (w : CommandWord) (din : BitVec c.nMax) : (a.commit w (perform i din a)).status.err = true := by
  cases h : perform i din a with
  | ok a' => rw [Arch.commit_ok, perform_ok_err h hi, hone]
  | error f => rw [Arch.commit_error, Arch.raiseFault_of_err hone, hone]

/-- Only a reset or CLRERR can be the sample of a step that takes ERR from 1 to 0. -/
theorem step_err_falls {s t : State} (h : step s = .next t) (hone : s.arch.status.err = true)
    (hzero : t.arch.status.err = false) :
    ∃ p rest, s.queue = p :: rest ∧ (p.rst = true ∨ decode p.cmd = .command .clrerr) := by
  obtain ⟨-, hs⟩ | ⟨p, rest, hq, ⟨hrst, -⟩ | ⟨-, i, hdec, hs⟩ | ⟨-, -, hs⟩⟩ := step_cases s
  · cases hs.symm.trans h
    cases hone.symm.trans hzero
  · exact ⟨p, rest, hq, .inl hrst⟩
  · by_cases hi : i = .clrerr
    · exact ⟨p, rest, hq, .inr (hi ▸ hdec)⟩
    · rw [exec_eq] at hs
      cases hs.symm.trans h
      cases (Arch.commit_perform_err hone hi p.cmd p.din).symm.trans hzero
  · cases hs.symm.trans h
    rw [Arch.raiseFault_of_err hone] at hzero
    cases hone.symm.trans hzero

/-! ### The obligations -/

/-- Settles O30: ERR falls only by a reset or CLRERR, whose one word is 0x9000. -/
theorem errStaysUntilCleared : Obligations.ErrStaysUntilCleared := by
  unfold Obligations.ErrStaysUntilCleared
  refine ⟨fun c a => Arch.outputs_errO a, fun s t h hone hzero => ?_⟩
  obtain ⟨p, rest, hq, hp⟩ := step_err_falls h hone hzero
  exact ⟨p, rest, hq, hp.imp_right eq_0x9000_of_decode_eq_clrerr⟩

/-- Settles O48: a well-formed register's length fits the port, so every bit of CWOUT is known. -/
theorem cwoutReadsCodeword : Obligations.CwoutReadsCodeword := by
  unfold Obligations.CwoutReadsCodeword
  intro c x hx
  have hlen : x.length ≤ c.nMax := hx.length_le
  refine ⟨fun i h1 hi => (CodewordReg.bit_eq_getLsbD_cwout hlen h1 hi).symm, fun j hj => ?_⟩
  rw [testBit_cwout x hlen, decide_eq_false (Nat.not_lt.2 hj), Bool.false_and]

end Sys2Proof.Machine
end

section
/-! The legal words of 30_encoding.md (R72): `encode` matches them one for one with the well-formed commands, which are
listed and counted by name; the words that remain are illegal. -/

namespace Sys2Proof

/-! ### Legal words and well-formed commands -/

/-- The word of a well-formed command decodes to it. -/
theorem decode_encode {i : Instr} (h : i.wellFormed = true) : decode (encode i) = .command i := by
  cases i with
  | loadi rd => exact Laws.RoundTrip.loadi rd h
  | loadb rd m => exact Laws.RoundTrip.loadb rd m h
  | loadc rd n => exact Laws.RoundTrip.loadc rd n h
  | space rd => exact Laws.RoundTrip.space rd h
  | populate rd => exact Laws.RoundTrip.populate rd h
  | flip rd pos => exact Laws.RoundTrip.flip rd pos h
  | syndrome rd => exact Laws.RoundTrip.syndrome rd h
  | clone rd rs => exact Laws.RoundTrip.clone rd rs h
  | clrerr => exact Laws.RoundTrip.clrerr h

theorem fitsImm_immOf (w : CommandWord) : fitsImm (immOf w) = true :=
  decide_eq_true (Nat.le_of_lt_succ (w.extractLsb' 0 7).isLt)

theorem bitOfReg_rdOf (w : CommandWord) : bitOfReg (rdOf w) = w.getLsbD 11 := bitOfReg_regOfBit _

theorem bitOfReg_rsOf (w : CommandWord) : bitOfReg (rsOf w) = w.getLsbD 10 := bitOfReg_regOfBit _

/-- A word with Z = 0 is the pattern of its fields, whatever terms they are given by. -/
theorem packFields_eq_of_fields {w : CommandWord} {opc : BitVec 4} {rd rs : Bit} {imm : Nat}
    (hopc : opcOf w = opc) (hrd : w.getLsbD 11 = rd) (hrs : w.getLsbD 10 = rs) (hz : zOf w = 0)
    (himm : immOf w = imm) : packFields opc rd rs imm = w := by
  subst hopc hrd hrs himm
  exact packFields_fields w hz

/-! The fields that a row's mask keeps, and the operands read from the others, give the word back. -/

theorem packFields_of_rd_row {w : CommandWord} {opc : BitVec 4}
    (h : opcOf w = opc ∧ w.getLsbD 10 = false ∧ zOf w = 0 ∧ immOf w = 0) :
    packFields opc (bitOfReg (rdOf w)) false 0 = w := by
  obtain ⟨hopc, hrs, hz, himm⟩ := h
  exact packFields_eq_of_fields hopc (bitOfReg_rdOf w).symm hrs hz himm

theorem packFields_of_rd_imm_row {w : CommandWord} {opc : BitVec 4}
    (h : opcOf w = opc ∧ w.getLsbD 10 = false ∧ zOf w = 0) :
    packFields opc (bitOfReg (rdOf w)) false (immOf w) = w := by
  obtain ⟨hopc, hrs, hz⟩ := h
  exact packFields_eq_of_fields hopc (bitOfReg_rdOf w).symm hrs hz rfl

theorem packFields_of_rd_rs_row {w : CommandWord} {opc : BitVec 4}
    (h : opcOf w = opc ∧ zOf w = 0 ∧ immOf w = 0) :
    packFields opc (bitOfReg (rdOf w)) (bitOfReg (rsOf w)) 0 = w := by
  obtain ⟨hopc, hz, himm⟩ := h
  exact packFields_eq_of_fields hopc (bitOfReg_rdOf w).symm (bitOfReg_rsOf w).symm hz himm

theorem packFields_of_fixed_row {w : CommandWord} {opc : BitVec 4}
    (h : opcOf w = opc ∧ w.getLsbD 11 = false ∧ w.getLsbD 10 = false ∧ zOf w = 0 ∧ immOf w = 0) :
    packFields opc false false 0 = w := by
  obtain ⟨hopc, hrd, hrs, hz, himm⟩ := h
  exact packFields_eq_of_fields hopc hrd hrs hz himm

/-- A legal word is the word of the command it decodes to, and that command is well formed. -/
theorem encode_of_decode {w : CommandWord} {i : Instr} (h : decode w = .command i) :
    encode i = w ∧ i.wellFormed = true := by
  rw [decode_fields] at h
  repeat' split at h
  all_goals cases h -- the nine rows remain, in their order
  next hloadi => exact ⟨packFields_of_rd_row hloadi, rfl⟩
  next hloadb => exact ⟨packFields_of_rd_imm_row hloadb, fitsImm_immOf w⟩
  next hloadc => exact ⟨packFields_of_rd_imm_row hloadc, fitsImm_immOf w⟩
  next hspace => exact ⟨packFields_of_rd_row hspace, rfl⟩
  next hpopulate => exact ⟨packFields_of_rd_row hpopulate, rfl⟩
  next hflip => exact ⟨packFields_of_rd_imm_row hflip, fitsImm_immOf w⟩
  next hsyndrome => exact ⟨packFields_of_rd_row hsyndrome, rfl⟩
  next hclone => exact ⟨packFields_of_rd_rs_row hclone, rfl⟩
  next hclrerr => exact ⟨packFields_of_fixed_row hclrerr, rfl⟩

/-! ### The well-formed commands, listed by name -/

/-- The names of the commands, in the order of the opcode map. -/
def mnemonics : List Mnemonic := opcodeRows.map (·.name)

/-- The values of a register field (R57). -/
def regs : List Reg := [.r0, .r1]

/-- The well-formed commands of one name: every operand at every value its field admits. -/
def commandsNamed : Mnemonic → List Instr
  | .LOADI => regs.map .loadi
  | .LOADB => (regs ×ˢ List.range 128).map fun (rd, m) => .loadb rd m
  | .LOADC => (regs ×ˢ List.range 128).map fun (rd, n) => .loadc rd n
  | .SPACE => regs.map .space
  | .POPULATE => regs.map .populate
  | .FLIP => (regs ×ˢ List.range 128).map fun (rd, pos) => .flip rd pos
  | .SYNDROME => regs.map .syndrome
  | .CLONE => (regs ×ˢ regs).map fun (rd, rs) => .clone rd rs
  | .CLRERR => [.clrerr]

/-- The number OPC of a name (R60 to R68). -/
def opcodeOf : Mnemonic → Nat
  | .LOADI => 0x1
  | .LOADB => 0x2
  | .LOADC => 0x3
  | .SPACE => 0x4
  | .POPULATE => 0x5
  | .FLIP => 0x6
  | .SYNDROME => 0x7
  | .CLONE => 0x8
  | .CLRERR => 0x9

/-- The number of words of a name: the product of its operands' ranges (R72). -/
def wordCount : Mnemonic → Nat
  | .LOADI | .SPACE | .POPULATE | .SYNDROME => 2
  | .LOADB | .LOADC | .FLIP => 2 * 128
  | .CLONE => 2 * 2
  | .CLRERR => 1

@[simp] theorem mem_mnemonics (n : Mnemonic) : n ∈ mnemonics := by cases n <;> decide

theorem nodup_mnemonics : mnemonics.Nodup := by decide

@[simp] theorem mem_regs (r : Reg) : r ∈ regs := by cases r <;> decide

theorem nodup_regs : regs.Nodup := by decide

theorem mnemonic_of_mem_commandsNamed {n : Mnemonic} {i : Instr} (hi : i ∈ commandsNamed n) : i.mnemonic = n := by
  cases n with
  | LOADI | LOADB | LOADC | SPACE | POPULATE | FLIP | SYNDROME | CLONE =>
    obtain ⟨_, -, rfl⟩ := List.mem_map.1 hi
    rfl
  | CLRERR =>
    cases List.mem_singleton.1 hi
    rfl

theorem mem_commandsNamed_mnemonic (i : Instr) : i ∈ commandsNamed i.mnemonic ↔ i.wellFormed = true := by
  cases i <;> simp [commandsNamed, Instr.mnemonic, Instr.wellFormed, fitsImm, Nat.lt_succ_iff]

theorem nodup_commandsNamed (n : Mnemonic) : (commandsNamed n).Nodup := by
  cases n with
  | LOADI | SPACE | POPULATE | SYNDROME | CLONE | CLRERR => decide
  | LOADB | LOADC | FLIP =>
    exact (nodup_regs.product List.nodup_range).map fun x y h => by cases x; cases y; cases h; rfl

@[simp] theorem length_commandsNamed (n : Mnemonic) : (commandsNamed n).length = wordCount n := by
  cases n <;> simp [commandsNamed, regs, wordCount]

theorem opcOf_encode (i : Instr) : (opcOf (encode i)).toNat = opcodeOf i.mnemonic := by
  cases i <;> simp [encode, opcodeOf, Instr.mnemonic]

/-! ### The legal words -/

/-- The commands that have a word. -/
def legalCommands : List Instr := mnemonics.flatMap commandsNamed

/-- The legal words of R72, made by the encoder. -/
def legalWords : List CommandWord := legalCommands.map encode

theorem mem_legalCommands {i : Instr} : i ∈ legalCommands ↔ i.wellFormed = true := by
  rw [legalCommands, List.mem_flatMap, ← mem_commandsNamed_mnemonic]
  constructor
  · rintro ⟨n, -, hi⟩
    rwa [mnemonic_of_mem_commandsNamed hi]
  · exact fun hi => ⟨i.mnemonic, mem_mnemonics _, hi⟩

theorem nodup_legalCommands : legalCommands.Nodup := by
  refine List.nodup_flatMap.2 ⟨fun n _ => nodup_commandsNamed n, nodup_mnemonics.imp fun hne i hi hj => hne ?_⟩
  rw [← mnemonic_of_mem_commandsNamed hi, mnemonic_of_mem_commandsNamed hj]

theorem mem_legalWords {w : CommandWord} : w ∈ legalWords ↔ decode w ≠ .illegal := by
  simp only [legalWords, List.mem_map, mem_legalCommands]
  constructor
  · rintro ⟨i, hi, rfl⟩
    simp [decode_encode hi]
  · intro h
    cases hd : decode w with
    | command i =>
      obtain ⟨hw, hi⟩ := encode_of_decode hd
      exact ⟨i, hi, hw⟩
    | illegal => exact absurd hd h

theorem nodup_legalWords : legalWords.Nodup := by
  refine nodup_legalCommands.map_on fun i hi j hj h => ?_
  have hd : Decoded.command i = .command j := by
    rw [← decode_encode (mem_legalCommands.1 hi), ← decode_encode (mem_legalCommands.1 hj), h]
  cases hd
  rfl

theorem length_legalWords : legalWords.length = 781 := by
  simp only [legalWords, legalCommands, List.length_map, List.length_flatMap, length_commandsNamed]
  decide

/-- The words of one name all have its opcode, so a name counts with all its words or with none. -/
theorem countP_opcode_legalWords (k : Nat) :
    legalWords.countP (fun w => (opcOf w).toNat == k) =
      (mnemonics.map fun n => if opcodeOf n = k then wordCount n else 0).sum := by
  rw [legalWords, List.countP_map, legalCommands, List.countP_flatMap]
  refine congrArg List.sum (List.map_congr_left fun n _ => ?_)
  have hopc : ∀ i ∈ commandsNamed n, (opcOf (encode i)).toNat = opcodeOf n := fun i hi => by
    rw [opcOf_encode, mnemonic_of_mem_commandsNamed hi]
  split
  next hk => exact (List.countP_eq_length.2 fun i hi => by simp [hopc i hi, hk]).trans (length_commandsNamed n)
  next hk => exact List.countP_eq_zero.2 fun i hi => by simp [hopc i hi, hk]

/-! ### The illegal words -/

/-- The 65536 words. -/
def allWords : List CommandWord := List.ofFn (n := 2 ^ 16) BitVec.ofFin

/-- The words that `decode` calls ILLEGAL (R70). -/
def illegalWords : List CommandWord := allWords.filter (decode · = .illegal)

theorem mem_allWords (w : CommandWord) : w ∈ allWords := List.mem_ofFn.2 ⟨w.toFin, rfl⟩

theorem nodup_allWords : allWords.Nodup := List.nodup_ofFn.2 fun _ _ h => congrArg BitVec.toFin h

theorem length_allWords : allWords.length = 2 ^ 16 := List.length_ofFn

theorem mem_illegalWords {w : CommandWord} : w ∈ illegalWords ↔ decode w = .illegal := by
  simp [illegalWords, mem_allWords]

theorem legalWords_perm : legalWords.Perm (allWords.filter fun w => !decide (decode w = .illegal)) := by
  refine (List.perm_ext_iff_of_nodup nodup_legalWords (nodup_allWords.filter _)).2 fun w => ?_
  simp [mem_legalWords, mem_allWords]

/-- What a filter keeps and what it drops make up the whole list. It is stated over any list because Lean evaluates a
sum of two closed lengths, and the list of all words is too long for that. -/
theorem length_filter_eq_sub {α : Type} {p : α → Bool} {all dropped : List α} {n k : Nat} (hall : all.length = n)
    (hdropped : dropped.length = k) (h : dropped.Perm (all.filter fun x => !p x)) :
    (all.filter p).length = n - k := by
  rw [List.length_eq_length_filter_add p, ← h.length_eq] at hall
  omega

theorem length_illegalWords : illegalWords.length = 64755 :=
  length_filter_eq_sub length_allWords length_legalWords legalWords_perm

/-! ### The obligation -/

/-- Settles O6: the legal words are the encodings of the 781 well-formed commands, and the illegal ones are the rest
of the 2^16 words; a name's commands are those of its opcode. -/
theorem legalWordCount : Obligations.LegalWordCount := by
  unfold Obligations.LegalWordCount
  refine ⟨legalWords, illegalWords, nodup_legalWords, length_legalWords, fun w => mem_legalWords,
    nodup_allWords.filter _, length_illegalWords, fun w => mem_illegalWords, ?_⟩
  simp only [countP_opcode_legalWords]
  decide

end Sys2Proof
end

section
/-! The layout algebra of 40_layout.md, sections on `bitlen`, `kreq` and the parity and data positions (R82 to R86,
R92). -/

namespace Sys2Proof.Machine

/-! ### bitlen, mw and kreq as unique solutions -/

/-- R82: `bitlen(x)` is pinned by the two powers of two around `x`. -/
theorem bitlen_eq_iff {x b : Nat} (hx : 1 ≤ x) : bitlen x = b ↔ 1 ≤ b ∧ 2 ^ (b - 1) ≤ x ∧ x < 2 ^ b := by
  have hpos := bitlen_pos hx
  rw [← lt_bitlen_iff, ← bitlen_le_iff]
  omega

theorem bitlen_two_pow (j : Nat) : bitlen (2 ^ j) = j + 1 :=
  (bitlen_eq_iff Nat.one_le_two_pow).2 ⟨by omega, le_rfl, Nat.pow_lt_pow_right (by omega) (by omega)⟩

theorem mw_of_pos {v : Nat} (hv : 1 ≤ v) : mw v = bitlen v := if_neg (by omega)

/-- R83: `kreq(m)` is the first count that suffices. -/
theorem kreq_eq_iff {m k : Nat} : kreq m = k ↔ k + m + 1 ≤ 2 ^ k ∧ ∀ j, j < k → 2 ^ j < j + m + 1 := by
  constructor
  · rintro rfl
    exact ⟨kreq_enough m, fun j => lt_of_lt_kreq⟩
  · rintro ⟨henough, hbelow⟩
    refine (kreq_le_of_enough henough).antisymm (Nat.le_of_not_lt fun hlt => ?_)
    exact Nat.not_lt.2 (kreq_enough m) (hbelow _ hlt)

/-! ### Parity positions -/

@[simp] theorem length_ppos (n : Nat) : (ppos n).length = bitlen n := by simp [ppos]

theorem ppos_pairwise (n : Nat) : (ppos n).Pairwise (· < ·) :=
  List.pairwise_lt_range.map _ fun _ _ h => Nat.pow_lt_pow_right (by omega) h

/-- R85: two ascending lists with the same members are equal. -/
theorem ppos_eq_filter (n : Nat) : ppos n = (positions n).filter isPow2 := by
  refine (ppos_pairwise n).eq_of_mem_iff ((positions_pairwise n).filter _) fun p => ?_
  rw [mem_ppos_iff, List.mem_filter, mem_positions]
  refine ⟨fun ⟨hp, hn⟩ => ⟨⟨?_, hn⟩, hp⟩, fun ⟨⟨_, hn⟩, hp⟩ => ⟨hp, hn⟩⟩
  obtain ⟨k, rfl⟩ := (isPow2_iff p).1 hp
  exact Nat.one_le_two_pow

/-! ### Encoded lengths -/

theorem isPow2_eq_false_iff {n : Nat} : isPow2 n = false ↔ ∀ k, n ≠ 2 ^ k := by
  simp [← Bool.not_eq_true, isPow2_iff]

/-- A number that is no power of two lies strictly above the weight of its highest digit. -/
theorem two_pow_pred_bitlen_lt {n : Nat} (h1 : 1 ≤ n) (hn : isPow2 n = false) : 2 ^ (bitlen n - 1) < n := by
  obtain ⟨-, hle, -⟩ := (bitlen_eq_iff h1).1 rfl
  exact hle.lt_of_ne (isPow2_eq_false_iff.1 hn _).symm

/-- An encoded length is no power of two: that power would be the weight of its highest digit, which it exceeds. -/
theorem isPow2_encoded_length {m : Nat} (hm : 1 ≤ m) : isPow2 (m + kreq m) = false := by
  obtain ⟨hlo, -⟩ := encoded_length_between hm
  refine isPow2_eq_false_iff.2 fun k hk => hlo.ne' ?_
  have hb : kreq m = k + 1 := by rw [← bitlen_encoded_length hm, hk, bitlen_two_pow]
  rw [hk, hb, Nat.add_sub_cancel]

/-- A length `n` that is no power of two encodes `n - bitlen(n)` payload bits. A smaller count `j` falls short since
`2^j - j` ascends and `2^(bitlen(n) - 1) < n`. -/
theorem kreq_payloadIndex {n : Nat} (h1 : 1 ≤ n) (hn : isPow2 n = false) : kreq (payloadIndex n) = bitlen n := by
  have hself := bitlen_le_self n
  rw [kreq_eq_iff, payloadIndex]
  refine ⟨by have := lt_two_pow_bitlen n; omega, fun j hj => ?_⟩
  have hlo := two_pow_pred_bitlen_lt h1 hn
  have hstep := (pow_right_strictMono₀ (one_lt_two (α := Nat))).add_le_nat (bitlen n - 1 - j) j
  rw [Nat.sub_add_cancel (by omega)] at hstep
  omega

/-- R86: the encoded lengths are the numbers from 3 on that are no power of two. -/
theorem exists_encoded_length_iff {n : Nat} :
    (∃ m, 1 ≤ m ∧ n = m + kreq m) ↔ 3 ≤ n ∧ isPow2 n = false := by
  constructor
  · rintro ⟨m, hm, rfl⟩
    have hn := isPow2_encoded_length hm
    exact ⟨three_le (by omega) hn, hn⟩
  · rintro ⟨h3, hn⟩
    have h1 : 1 ≤ n := by omega
    refine ⟨payloadIndex n, payloadIndex_pos h1 hn, ?_⟩
    rw [kreq_payloadIndex h1 hn, payloadIndex, Nat.sub_add_cancel (bitlen_le_self n)]

/-! ### Data positions -/

/-- The data positions up to `n` can only grow in number: each new position adds at most one parity position. -/
theorem payloadIndex_mono : Monotone payloadIndex := by
  refine monotone_nat_of_le_succ fun n => ?_
  have := Bool.toNat_le (isPow2 (n + 1))
  rw [payloadIndex, payloadIndex, bitlen_succ]
  omega

theorem dpos_lt_dpos_succ {j : Nat} (hj : 1 ≤ j) : dpos j < dpos (j + 1) := by
  obtain ⟨-, -, hindex⟩ := dpos_spec hj
  obtain ⟨-, -, hnext⟩ := dpos_spec (j := j + 1) (by omega)
  exact payloadIndex_mono.reflect_lt (by omega)

/-! ### The obligations -/

/-- Settles O35: each bound on `x` is a bound on `bitlen(x)`. -/
theorem bitlenBrackets : Obligations.BitlenBrackets := by
  unfold Obligations.BitlenBrackets
  exact ⟨bitlen_zero, fun _ _ => bitlen_eq_iff, rfl, fun _ => mw_of_pos⟩

/-- Settles O36: the bounded search ends at the first count that suffices. -/
theorem kreqIsSmallest : Obligations.KreqIsSmallest := by
  unfold Obligations.KreqIsSmallest
  exact fun _ _ => kreq_eq_iff

/-- Settles O37: `i & (i - 1)` clears the lowest set bit, and keeps the highest unless that is the same one. -/
theorem powerOfTwoTest : Obligations.PowerOfTwoTest := by
  unfold Obligations.PowerOfTwoTest
  exact isPow2_iff

/-- Settles O38: both lists ascend and hold the powers of two in `[1, n]`. -/
theorem parityPositionsAreFilter : Obligations.ParityPositionsAreFilter := by
  unfold Obligations.ParityPositionsAreFilter
  exact fun n => ⟨ppos_eq_filter n, length_ppos n⟩

/-- Settles O39: an encoded length has `kreq(m)` digits; a length that is no power of two encodes `n - bitlen(n)`
bits. -/
theorem parityFormulasAgree : Obligations.ParityFormulasAgree := by
  unfold Obligations.ParityFormulasAgree
  refine ⟨fun m hm => ?_, fun n => ?_⟩
  · have hb := bitlen_encoded_length hm
    exact ⟨hb, by rw [ppos, hb]⟩
  · rw [exists_encoded_length_iff, isPow2_eq_false_iff]

/-- Settles O44: `payloadIndex` numbers the data positions, and `dpos` reads the numbered list. -/
theorem dataPositionMap : Obligations.DataPositionMap := by
  unfold Obligations.DataPositionMap
  refine ⟨fun i h1 hi => ⟨payloadIndex_pos h1 hi, dpos_payloadIndex h1 hi, length_ppos i, ?_⟩, fun j hj => ?_⟩
  · simp [mem_ppos_iff, hi]
  · obtain ⟨-, hdata, hindex⟩ := dpos_spec hj
    exact ⟨hdata, hindex, dpos_lt_dpos_succ hj⟩

end Sys2Proof.Machine
end

section
/-! The layout algebra of 40_layout.md, sections on the coverage groups, the parity vector and the syndrome (R87 to R91,
R93). -/

namespace Sys2Proof.Machine

/-! ### Coverage groups -/

theorem mem_cover_iff {p i n : Nat} : i ∈ cover p n ↔ 1 ≤ i ∧ i ≤ n ∧ i &&& p = p := by
  rw [cover, List.mem_filter, mem_positions, beq_iff_eq, and_assoc]

theorem cover_pairwise (p n : Nat) : (cover p n).Pairwise (· < ·) := (positions_pairwise n).filter _

/-- A parity position is in the group of another one only if the two are the same (R88). -/
theorem two_pow_mem_cover_iff {j k n : Nat} : 2 ^ k ∈ cover (2 ^ j) n ↔ 2 ^ k ≤ n ∧ k = j := by
  simp [mem_cover, Nat.one_le_two_pow, Nat.testBit_two_pow]

/-- Every set bit of a position names a parity position that covers it (R88). -/
theorem covered_of_testBit {i j n : Nat} (h1 : 1 ≤ i) (hn : i ≤ n) (hj : i.testBit j = true) :
    2 ^ j ∈ ppos n ∧ i ∈ cover (2 ^ j) n :=
  ⟨two_pow_mem_ppos.2 ((lt_bitlen_iff n j).2 ((Nat.ge_two_pow_of_testBit hj).trans hn)), mem_cover.2 ⟨⟨h1, hn⟩, hj⟩⟩

/-- A number that is no power of two has two set bits: it differs from the weight of its first one in another bit. -/
theorem exists_two_testBits {i : Nat} (h1 : 1 ≤ i) (hi : isPow2 i = false) :
    ∃ j k, j ≠ k ∧ i.testBit j = true ∧ i.testBit k = true := by
  obtain ⟨j, hj⟩ := Nat.exists_testBit_of_ne_zero (x := i) (by omega)
  obtain ⟨k, hk⟩ := Nat.exists_testBit_ne_of_ne (isPow2_eq_false_iff.1 hi j)
  have hjk : j ≠ k := by
    rintro rfl
    exact hk (by rw [hj, Nat.testBit_two_pow_self])
  exact ⟨j, k, hjk, hj, by simpa [Nat.testBit_two_pow, hjk] using hk⟩

/-! ### The parity vector and its weights -/

theorem parityVec_getElem? (f : Nat → Bit) {n j : Nat} (hj : j < bitlen n) :
    (parityVec f n)[j]? = some (parityOf f n (2 ^ j)) := by
  simp [parityVec, ppos, hj]

/-- A sequence with its last Bit the most significant is the sum of its Bits, Bit `j` with weight `2^j` (R90). -/
theorem valueLsbFirst_eq_sum (bs : List Bit) :
    valueLsbFirst bs = ((List.range bs.length).map fun j => (bs.getD j false).toNat * 2 ^ j).sum := by
  induction bs with
  | nil => rfl
  | cons b bs ih =>
    have hterm : ∀ j, ((b :: bs).getD (j + 1) false).toNat * 2 ^ (j + 1) = 2 * ((bs.getD j false).toNat * 2 ^ j) := by
      intro j
      rw [List.getD_cons_succ, Nat.pow_succ]
      ring
    rw [valueLsbFirst, ih, List.length_cons, List.range_succ_eq_map, List.map_cons, List.map_map, List.sum_cons,
      ← List.sum_map_mul_left]
    simp only [Function.comp_def, Nat.succ_eq_add_one, hterm]
    simp

/-! ### The syndrome by positions -/

/-- A bit index that no position of `1..n` reaches has the parity Bit 0. -/
theorem parityOf_two_pow_of_bitlen_le (f : Nat → Bit) {n j : Nat} (hj : bitlen n ≤ j) :
    parityOf f n (2 ^ j) = false := by
  rw [parityOf_two_pow, ← xorOver_false (positions n)]
  refine xorOver_congr fun i hi => ?_
  obtain ⟨-, hn⟩ := mem_positions.1 hi
  rw [Nat.testBit_lt_two_pow (hn.trans_lt ((bitlen_le_iff n j).1 hj)), Bool.false_and]

/-- Bit `j` of the XOR of the set positions is the parity Bit of the group of `2^j` (R91). -/
theorem testBit_xorOfSetPositions (f : Nat → Bit) (n j : Nat) :
    (xorOfSetPositions f n).testBit j = parityOf f n (2 ^ j) := by
  rw [xorOfSetPositions, testBit_xorFold, xorOver_filter, parityOf_two_pow]
  exact xorOver_congr fun i _ => Bool.and_comm _ _

/-! ### XOR trees -/

/-- A tree computes the XOR of its leaves, whatever its shape (R93). -/
theorem xorTreeValue_eq_xorOver (f : Nat → Bit) (t : XorTree) : xorTreeValue f t = xorOver (xorTreeLeaves t) f := by
  induction t with
  | leaf i => simp [xorTreeValue, xorTreeLeaves]
  | node l r ihl ihr => rw [xorTreeValue, xorTreeLeaves, xorOver_append, ihl, ihr]

/-! ### The obligations -/

/-- Settles O40: `i & 2^j` is `2^j` exactly if bit `j` of `i` is set, as it is in `2^j`. -/
theorem coverageGroups : Obligations.CoverageGroups := by
  unfold Obligations.CoverageGroups
  refine fun p n => ⟨fun _ => mem_cover_iff, cover_pairwise p n, ?_⟩
  rintro j rfl
  exact ⟨fun i => by rw [mem_cover, and_assoc], fun hn => two_pow_mem_cover_iff.2 ⟨hn, rfl⟩⟩

/-- Settles O41: the groups of a position are those of its set bits, of which a parity position has one and a data
position at least two. -/
theorem coverageProperties : Obligations.CoverageProperties := by
  unfold Obligations.CoverageProperties
  refine fun n => ⟨fun p hp => ?_, fun p hp q hq hne hmem => ?_, fun i j h1 hn => ?_, fun i h1 hn => ?_,
    fun i h1 hn hi => ?_⟩
  · obtain ⟨j, hj, rfl⟩ := mem_ppos.1 hp
    exact two_pow_mem_cover_iff.2 ⟨(lt_bitlen_iff n j).1 hj, rfl⟩
  · obtain ⟨j, -, rfl⟩ := mem_ppos.1 hp
    obtain ⟨k, -, rfl⟩ := mem_ppos.1 hq
    obtain ⟨-, rfl⟩ := two_pow_mem_cover_iff.1 hmem
    exact hne rfl
  · simp [mem_cover, h1, hn]
  · obtain ⟨j, hj⟩ := Nat.exists_testBit_of_ne_zero (x := i) (by omega)
    exact ⟨2 ^ j, covered_of_testBit h1 hn hj⟩
  · obtain ⟨j, k, hjk, hj, hk⟩ := exists_two_testBits h1 hi
    obtain ⟨hpos_j, hcov_j⟩ := covered_of_testBit h1 hn hj
    obtain ⟨hpos_k, hcov_k⟩ := covered_of_testBit h1 hn hk
    exact ⟨2 ^ j, hpos_j, 2 ^ k, hpos_k, (Nat.pow_right_injective le_rfl).ne hjk, hcov_j, hcov_k⟩

/-- Settles O42: the syndrome is the parity vector read with weight `2^j` at Bit `j`. -/
theorem syndromeIsWeightedSum : Obligations.SyndromeIsWeightedSum := by
  unfold Obligations.SyndromeIsWeightedSum
  refine fun f n => ⟨length_parityVec f n, fun j => parityVec_getElem? f, ?_, syndromeValue_lt f n⟩
  rw [syndromeValue, valueLsbFirst_eq_sum, length_parityVec]

/-- Settles O43: the two integers agree bit by bit, and have no bit at or above `bitlen(n)`. -/
theorem syndromeIsXorOfPositions : Obligations.SyndromeIsXorOfPositions := by
  unfold Obligations.SyndromeIsXorOfPositions
  refine fun f n => Nat.eq_of_testBit_eq fun j => ?_
  rw [testBit_syndromeValue, testBit_xorOfSetPositions]
  by_cases hj : j < bitlen n
  · simp [hj]
  · simp [hj, parityOf_two_pow_of_bitlen_le f (Nat.le_of_not_lt hj)]

/-- Settles O45: the XOR over a group does not depend on the order of its positions. -/
theorem anyXorTreeGivesParity : Obligations.AnyXorTreeGivesParity := by
  unfold Obligations.AnyXorTreeGivesParity
  intro f n p t hperm
  rw [xorTreeValue_eq_xorOver, xorOver_perm hperm, parityOf]

end Sys2Proof.Machine
end

section
/-! The encoder commands of 41_encoder.md on a codeword register: the payload SPACE spreads out, the parity POPULATE
writes, and the codeword of the two together (R102 to R105). -/

namespace Sys2Proof.Machine

variable {c : Config}

/-! ### A parity group as its slot and its data positions -/

/-- An XOR splits into the elements that meet a test and those that do not. -/
theorem xorOver_filter_xor_filter_not (S : List Nat) (q : Nat → Bool) (f : Nat → Bit) :
    (xorOver (S.filter q) f ^^ xorOver (S.filter fun i => !q i) f) = xorOver S f := by
  rw [← xorOver_append, xorOver_perm (List.filter_append_perm q S)]

/-- Among the parity positions the group of `2^j` covers its own slot only (40_layout.md R88). -/
theorem xorOver_ppos (f : Nat → Bit) {n j : Nat} (hj : j < bitlen n) :
    xorOver (ppos n) (fun i => i.testBit j && f i) = f (2 ^ j) := by
  have hslot : ∀ p ∈ ppos n, (p.testBit j && f p) = (f (2 ^ j) && decide (p = 2 ^ j)) := by
    intro p hp
    obtain ⟨k, -, rfl⟩ := mem_ppos.1 hp
    by_cases hkj : k = j
    · simp [hkj]
    · simp [hkj]
  rw [xorOver_congr hslot]
  cases f (2 ^ j)
  · simpa using xorOver_false (ppos n)
  · simpa [two_pow_mem_ppos, hj] using xorOver_eq_mem ((ppos_pairwise n).imp ne_of_lt) (2 ^ j)

/-- The parity Bit of `2^j` is its slot XOR the data bits it covers. -/
theorem parityOf_two_pow_eq_slot_xor_data (f : Nat → Bit) {n j : Nat} (hj : j < bitlen n) :
    parityOf f n (2 ^ j) = (f (2 ^ j) ^^ xorOver (dataPositions n) fun i => i.testBit j && f i) := by
  rw [parityOf_two_pow, ← xorOver_filter_xor_filter_not _ isPow2, ← ppos_eq_filter, ← dataPositions, xorOver_ppos f hj]

/-- Writing its own parity into each slot, where a 0 stood, and leaving the data positions makes every parity Bit 0. -/
theorem parityOf_eq_false_of_written {f g : Nat → Bit} {n j : Nat} (hj : j < bitlen n) (hzero : f (2 ^ j) = false)
    (hslot : g (2 ^ j) = parityOf f n (2 ^ j)) (hdata : ∀ i, isPow2 i = false → g i = f i) :
    parityOf g n (2 ^ j) = false := by
  have hcovered : xorOver (dataPositions n) (fun i => i.testBit j && g i) =
      xorOver (dataPositions n) fun i => i.testBit j && f i :=
    xorOver_congr fun i hi => by rw [hdata i (mem_dataPositions.1 hi).2]
  rw [parityOf_two_pow_eq_slot_xor_data g hj, hslot, parityOf_two_pow_eq_slot_xor_data f hj, hzero, hcovered,
    Bool.false_xor, Bool.xor_self]

/-- The data positions of an encoded length are those of the payload bits `1..m`. -/
theorem dataPositions_encoded_length {m : Nat} (hm : 1 ≤ m) : dataPositions (m + kreq m) = (positions m).map dpos := by
  rw [dataPositions_eq_map, bitlen_encoded_length hm, Nat.add_sub_cancel]

theorem dpos_le_encoded_length {j m : Nat} (hj : 1 ≤ j) (hjm : j ≤ m) : dpos j ≤ m + kreq m := by
  have hmem : dpos j ∈ dataPositions (m + kreq m) := by
    rw [dataPositions_encoded_length (hj.trans hjm)]
    exact List.mem_map_of_mem (mem_positions.2 ⟨hj, hjm⟩)
  exact (mem_dataPositions.1 hmem).1.2

/-! ### POPULATE -/

/-- POPULATE writes at `2^j` the parity Bit of the register before it (R103). -/
theorem populatedReg_bit_two_pow {x : CodewordReg c} (hx : x.WF) {j : Nat} (hj : j < bitlen x.length) :
    (populatedReg x).bit (2 ^ j) = parityOf x.bit x.length (2 ^ j) := by
  rw [populatedReg_bit x hx, populatedBit, if_pos (two_pow_mem_ppos.2 hj)]

/-- POPULATE leaves every position that is no power of two (R103). -/
theorem populatedReg_bit_of_data {x : CodewordReg c} (hx : x.WF) {i : Nat} (hi : isPow2 i = false) :
    (populatedReg x).bit i = x.bit i := by
  have hslot : i ∉ ppos x.length := by simp [mem_ppos_iff, hi]
  rw [populatedReg_bit x hx, populatedBit, if_neg hslot]

/-- A codeword POPULATE has just written is clean (R104). -/
theorem populatedReg_clean {x : CodewordReg c} (hx : x.WF) (hst : x.st = .spaced) : (populatedReg x).Clean := by
  refine ⟨populatedReg_st x, fun b hb => ?_⟩
  rw [populatedReg_length, parityVec] at hb
  obtain ⟨p, hp, rfl⟩ := List.mem_map.1 hb
  obtain ⟨j, hj, rfl⟩ := mem_ppos.1 hp
  exact parityOf_eq_false_of_written hj (hx.spaced_slots hst _ hp) (populatedReg_bit_two_pow hx hj)
    fun _ => populatedReg_bit_of_data hx

/-- A clean codeword has syndrome 0 (R104). -/
theorem CodewordReg.Clean.syndrome_eq_zero {x : CodewordReg c} (hx : x.Clean) : x.syndrome = 0 :=
  (syndromeValue_eq_zero_iff _ _).2 hx.2

/-! ### SPACE -/

/-- SPACE leaves a well-formed register, whatever the payload (R102). -/
theorem spacedReg_wf {x : CodewordReg c} (h1 : 1 ≤ x.length) (hmax : x.length ≤ c.mMax) : (spacedReg x).WF :=
  CodewordReg.WF.of_holds (spacedReg_holds hmax) (by decide) (by omega) (by simp) (fun _ => ⟨x.length, h1, hmax, rfl⟩)
    (fun _ p hp => by simp [(mem_ppos_iff.1 hp).1]) (c.encoded_le_nMax hmax)

theorem spacedReg_bit_two_pow {x : CodewordReg c} (h1 : 1 ≤ x.length) (hmax : x.length ≤ c.mMax) {t : Nat}
    (ht : t < kreq x.length) : (spacedReg x).bit (2 ^ t) = false := by
  obtain ⟨hlen, hst, -, -⟩ := spacedReg_holds hmax
  refine (spacedReg_wf h1 hmax).spaced_slots hst _ (two_pow_mem_ppos.2 ?_)
  rwa [hlen, bitlen_encoded_length h1]

/-- SPACE moves payload bit `j` to `dpos(j)` (R102, 40_layout.md R92). -/
theorem spacedReg_bit_dpos {x : CodewordReg c} (hmax : x.length ≤ c.mMax) {j : Nat} (hj : 1 ≤ j)
    (hjm : j ≤ x.length) : (spacedReg x).bit (dpos j) = x.bit j := by
  obtain ⟨-, -, hbit, -⟩ := spacedReg_holds hmax
  obtain ⟨⟨hpos, -⟩, hdata, hindex⟩ := dpos_spec hj
  have hmoved := hbit (dpos j) hpos (dpos_le_encoded_length hj hjm)
  simpa [hdata, show dpos j - bitlen (dpos j) = j from hindex] using hmoved

/-! ### SPACE, then POPULATE -/

/-- The register SPACE and POPULATE leave, one after the other. -/
def encodedReg (x : CodewordReg c) : CodewordReg c := populatedReg (spacedReg x)

theorem encodedReg_length {x : CodewordReg c} (hmax : x.length ≤ c.mMax) :
    (encodedReg x).length = x.length + kreq x.length := by
  obtain ⟨hlen, -, -, -⟩ := spacedReg_holds hmax
  rw [encodedReg, populatedReg_length, hlen]

@[simp] theorem encodedReg_st (x : CodewordReg c) : (encodedReg x).st = .populated := rfl

/-- The first half of R105: payload bit `j` stands at `dpos(j)`. -/
theorem encodedReg_bit_dpos {x : CodewordReg c} (h1 : 1 ≤ x.length) (hmax : x.length ≤ c.mMax) {j : Nat} (hj : 1 ≤ j)
    (hjm : j ≤ x.length) : (encodedReg x).bit (dpos j) = x.bit j := by
  obtain ⟨-, hdata, -⟩ := dpos_spec hj
  rw [encodedReg, populatedReg_bit_of_data (spacedReg_wf h1 hmax) hdata, spacedReg_bit_dpos hmax hj hjm]

/-- The second half of R105: the slots were 0, so the parity at `2^t` is the XOR of the payload bits it covers. -/
theorem encodedReg_bit_two_pow {x : CodewordReg c} (h1 : 1 ≤ x.length) (hmax : x.length ≤ c.mMax) {t : Nat}
    (ht : t < kreq x.length) :
    (encodedReg x).bit (2 ^ t) = xorOver ((positions x.length).filter fun j => (dpos j).testBit t) x.bit := by
  obtain ⟨hlen, -, -, -⟩ := spacedReg_holds hmax
  have hj : t < bitlen (spacedReg x).length := by rwa [hlen, bitlen_encoded_length h1]
  rw [encodedReg, populatedReg_bit_two_pow (spacedReg_wf h1 hmax) hj, parityOf_two_pow_eq_slot_xor_data _ hj,
    spacedReg_bit_two_pow h1 hmax ht, Bool.false_xor, hlen, dataPositions_encoded_length h1, xorOver_map, xorOver_filter]
  refine xorOver_congr fun j hj => ?_
  obtain ⟨hj1, hjm⟩ := mem_positions.1 hj
  rw [spacedReg_bit_dpos hmax hj1 hjm]

end Sys2Proof.Machine
end

section
/-! The encoder commands of 41_encoder.md on the machine, and the pseudo-instructions ENCODE and ENCODEB in every
configuration. -/

namespace Sys2Proof.Machine

variable {c : Config}

/-! ### The commands on the machine -/

/-- A command that writes one register changes nothing else. -/
theorem onlyRegChanges_setReg (s : State) (rd : Reg) (x : CodewordReg Config.reference) :
    s.OnlyRegChanges { s with arch := s.arch.setReg rd x } rd :=
  ⟨fun _ hr => Arch.reg_setReg_ne _ _ hr, Arch.setReg_syn _ _ _, Arch.setReg_status _ _ _, Arch.setReg_ecmd _ _ _,
    rfl, rfl⟩

/-- A load that completes on the machine leaves the bits of din in its register, and nothing else changes. -/
theorem exec_load_of_ok {i : Instr} {s : State} {rd : Reg} {L : Nat} {st : Lifecycle}
    (h : perform i s.port.din s.arch = .ok (s.arch.setReg rd (loadedReg Config.reference s.port.din L st)))
    (hL : L ≤ Config.reference.nMax) :
    ∃ t, exec i s = .next t ∧ (t.arch.reg rd).Holds L (fun i => s.port.din.getLsbD (L - i)) st ∧
      s.OnlyRegChanges t rd :=
  ⟨_, exec_of_ok h, by simpa using loadedReg_holds s.port.din st hL, onlyRegChanges_setReg s rd _⟩

/-- SYNDROME of a clean codeword completes with SYN = 0 and SZ = 1 (R104). -/
theorem exec_syndrome_of_clean {rd : Reg} {s : State} (h : (s.arch.reg rd).Clean) :
    ∃ u, exec (.syndrome rd) s = .next u ∧ u.arch.syn = 0 ∧ u.arch.status.sz = true :=
  ⟨_, exec_of_ok (syndrome_ok h.1), by simp [h.syndrome_eq_zero], by simp [h.syndrome_eq_zero]⟩

/-! ### The pseudo-instructions -/

/-- The lines of ENCODE and ENCODEB: the load, SPACE, POPULATE (30_encoding.md R75, R76). -/
def encoderLines (load : Instr) (rd : Reg) (v : Nat) : List AsmLine :=
  [⟨load, some v⟩, ⟨.space rd, none⟩, ⟨.populate rd, none⟩]

/-- The transactions of these lines. -/
def encoderSamples (c : Config) (load : Instr) (rd : Reg) (v : Nat) : List (PortSample c) :=
  [⟨encode load, BitVec.ofNat c.nMax v, false⟩, ⟨encode (.space rd), 0#_, false⟩, ⟨encode (.populate rd), 0#_, false⟩]

theorem expandSource_encode (rd : Reg) (v : Nat) : expandSource (.encode rd v) = encoderLines (.loadi rd) rd v := rfl

theorem expandSource_encodeb (rd : Reg) (m v : Nat) :
    expandSource (.encodeb rd m v) = encoderLines (.loadb rd m) rd v := rfl

/-- The assembler accepts the lines of a well-formed load of a value that din can carry (30_encoding.md R73). -/
theorem assembleLines_encoderLines {load : Instr} {rd : Reg} {v : Nat} (hwf : load.wellFormed = true)
    (hreads : load.readsDin = true) (hv : v < 2 ^ c.nMax) :
    assembleLines c (encoderLines load rd v) = some (encoderSamples c load rd v) := by
  have hload : asmAccepts c ⟨load, some v⟩ = true := by simp [asmAccepts, hwf, hreads, hv]
  have hspace : asmAccepts c ⟨.space rd, none⟩ = true := rfl
  have hpopulate : asmAccepts c ⟨.populate rd, none⟩ = true := rfl
  simp [encoderLines, encoderSamples, assembleLines, assembleLine, hload, hspace, hpopulate]

/-- A sample with the word of a well-formed command whose pseudocode completes leads to the state it gives. -/
theorem Arch.present_encode_of_ok {i : Instr} {din : BitVec c.nMax} {a a' : Arch c} (hwf : i.wellFormed = true)
    (h : perform i din a = .ok a') : a.present ⟨encode i, din, false⟩ = a' := by
  simp [Arch.present, Arch.step, decode_encode hwf, h]

/-- A load that completes as PAYLOAD, then SPACE and POPULATE, leaves the encoded register. -/
theorem presentAll_encoderSamples {load : Instr} {rd : Reg} {v : Nat} {a : Arch c} {x : CodewordReg c}
    (hwf : load.wellFormed = true) (hst : x.st = .payload)
    (h : perform load (BitVec.ofNat c.nMax v) a = .ok (a.setReg rd x)) :
    a.presentAll (encoderSamples c load rd v) = a.setReg rd (encodedReg x) := by
  have hspace : perform (.space rd) 0#c.nMax (a.setReg rd x) = .ok (a.setReg rd (spacedReg x)) := by
    simp [perform, space_ok, hst]
  have hpopulate : perform (.populate rd) 0#c.nMax (a.setReg rd (spacedReg x)) = .ok (a.setReg rd (encodedReg x)) := by
    simp [perform, populate_ok, spacedReg, encodedReg]
  simp only [Arch.presentAll, encoderSamples, List.foldl_cons, List.foldl_nil]
  rw [Arch.present_encode_of_ok hwf h, Arch.present_encode_of_ok rfl hspace, Arch.present_encode_of_ok rfl hpopulate]

/-- A payload that fits M_MAX bits is not cut by the din port. -/
theorem toNat_ofNat_nMax {m v : Nat} (hmax : m ≤ c.mMax) (hv : v < 2 ^ m) : (BitVec.ofNat c.nMax v).toNat = v :=
  (BitVec.toNat_ofNat _ _).trans
    (Nat.mod_eq_of_lt (hv.trans_le (Nat.pow_le_pow_right (by decide) (hmax.trans c.mMax_le_nMax))))

/-- A value below `2^m` is loaded as its own `m` low bits. -/
theorem loadedReg_ofNat_holds {m v : Nat} (hmax : m ≤ c.mMax) (hv : v < 2 ^ m) :
    (loadedReg c (BitVec.ofNat c.nMax v) m .payload).Holds m (fun j => v.testBit (m - j)) .payload := by
  simpa only [BitVec.getLsbD, toNat_ofNat_nMax hmax hv] using
    loadedReg_holds (BitVec.ofNat c.nMax v) .payload (hmax.trans c.mMax_le_nMax)

/-- A source line that stands for a completing load, SPACE and POPULATE assembles, and its transactions leave the
encoded register. -/
theorem assembleSource_run {src : AsmSource} {load : Instr} {rd : Reg} {v : Nat} {a : Arch c} {x : CodewordReg c}
    (hsrc : expandSource src = encoderLines load rd v) (hwf : load.wellFormed = true) (hreads : load.readsDin = true)
    (hv : v < 2 ^ c.nMax) (hst : x.st = .payload)
    (h : perform load (BitVec.ofNat c.nMax v) a = .ok (a.setReg rd x)) :
    ∃ ps, assembleSource c src = some ps ∧ a.presentAll ps = a.setReg rd (encodedReg x) :=
  ⟨_, by rw [assembleSource, hsrc, assembleLines_encoderLines hwf hreads hv], presentAll_encoderSamples hwf hst h⟩

/-- ENCODEB encodes the payload of length `m` (30_encoding.md R76). -/
theorem assembleSource_encodeb_run {rd : Reg} {m v : Nat} (a : Arch c) (h1 : 1 ≤ m) (hmax : m ≤ c.mMax)
    (hv : v < 2 ^ m) :
    ∃ ps, assembleSource c (.encodeb rd m v) = some ps ∧
      a.presentAll ps = a.setReg rd (encodedReg (loadedReg c (BitVec.ofNat c.nMax v) m .payload)) := by
  have hdin := toNat_ofNat_nMax hmax hv
  have himm : fitsImm m = true := decide_eq_true ((hmax.trans c.mMax_le_nMax).trans c.nMax_le)
  exact assembleSource_run (expandSource_encodeb rd m v) himm rfl (hdin ▸ BitVec.isLt _) rfl
    (loadb_ok h1 hmax (hdin.symm ▸ hv))

/-- ENCODE encodes the payload of its minimal width (30_encoding.md R75). -/
theorem assembleSource_encode_run {rd : Reg} {v : Nat} (a : Arch c) (hmax : mw v ≤ c.mMax) :
    ∃ ps, assembleSource c (.encode rd v) = some ps ∧
      a.presentAll ps = a.setReg rd (encodedReg (loadedReg c (BitVec.ofNat c.nMax v) (mw v) .payload)) := by
  have hdin := toNat_ofNat_nMax hmax (lt_two_pow_mw v)
  have hload := loadi_ok (rd := rd) (a := a) (hdin.symm ▸ hmax)
  rw [hdin] at hload
  exact assembleSource_run (expandSource_encode rd v) rfl rfl (hdin ▸ BitVec.isLt _) rfl hload

/-! ### The obligations -/

/-- Settles O19: LOADI completes exactly when the minimal width of din is a payload length. -/
theorem loadiLoadsMinimalWidth : Obligations.LoadiLoadsMinimalWidth := by
  unfold Obligations.LoadiLoadsMinimalWidth
  exact fun rd s => ⟨fun h => exec_load_of_ok (loadi_ok h) (h.trans Config.reference.mMax_le_nMax),
    fun h => refuses_of_error (loadi_error h)⟩

/-- Settles O20: the conditions for completing and for the fault are each other's negation. -/
theorem loadbLoadsExplicitLength : Obligations.LoadbLoadsExplicitLength := by
  unfold Obligations.LoadbLoadsExplicitLength
  intro rd m s
  simp only [ne_eq, shiftRight_eq_zero_iff]
  exact ⟨fun h1 hmax hfits => exec_load_of_ok (loadb_ok h1 hmax hfits) (hmax.trans Config.reference.mMax_le_nMax),
    fun h => refuses_of_error (loadb_error h)⟩

/-- Settles O22: the invariant bounds the payload by M_MAX, so the spaced register holds its whole length. -/
theorem spaceInsertsParitySlots : Obligations.SpaceInsertsParitySlots := by
  unfold Obligations.SpaceInsertsParitySlots
  refine fun rd s => ⟨fun hinv hst => ?_, fun hst => refuses_of_error (space_error hst)⟩
  obtain ⟨-, hmax⟩ := (Arch.Inv.reg hinv rd).payload_length hst
  exact ⟨_, exec_space_of_payload hst, by simpa only [Arch.reg_setReg] using spacedReg_holds hmax,
    onlyRegChanges_setReg s rd _⟩

/-- Settles O23: every parity is read from the register before the command. -/
theorem populateWritesParity : Obligations.PopulateWritesParity := by
  unfold Obligations.PopulateWritesParity
  refine fun rd s => ⟨fun hinv hst => ?_, fun hst => refuses_of_error (populate_error hst)⟩
  have hwf := Arch.Inv.reg hinv rd
  refine ⟨_, exec_populate_of_spaced hst, ?_⟩
  simp only [Arch.reg_setReg]
  exact ⟨fun j hj => by rw [parityVec_getElem? _ hj, populatedReg_bit_two_pow hwf hj],
    fun i => populatedReg_bit_of_data hwf, fun i => populatedReg_above hwf, rfl, rfl, onlyRegChanges_setReg s rd _⟩

/-- Settles O55: the load gives the payload of length `m`, and SPACE and POPULATE encode it. -/
theorem encoderFunction : Obligations.EncoderFunction := by
  unfold Obligations.EncoderFunction
  intro c a rd m v src hsrc
  obtain ⟨h1, hmax, hv⟩ : 1 ≤ m ∧ m ≤ c.mMax ∧ v < 2 ^ m := by
    rcases hsrc with ⟨-, hb⟩ | ⟨-, rfl, hmax⟩
    · exact hb
    · exact ⟨mw_pos v, hmax, lt_two_pow_mw v⟩
  obtain ⟨ps, hps, hrun⟩ : ∃ ps, assembleSource c src = some ps ∧
      a.presentAll ps = a.setReg rd (encodedReg (loadedReg c (BitVec.ofNat c.nMax v) m .payload)) := by
    rcases hsrc with ⟨rfl, -⟩ | ⟨rfl, rfl, -⟩
    · exact assembleSource_encodeb_run a h1 hmax hv
    · exact assembleSource_encode_run a hmax
  obtain ⟨hlen, -, hbit, -⟩ := loadedReg_ofNat_holds hmax hv
  refine ⟨ps, hps, ?_⟩
  rw [hrun, Arch.reg_setReg]
  generalize loadedReg c (BitVec.ofNat c.nMax v) m .payload = x at hlen hbit ⊢
  subst hlen
  refine ⟨encodedReg_length hmax, encodedReg_st x, fun j hj hjm => ?_, fun t ht => ?_⟩
  · rw [encodedReg_bit_dpos h1 hmax hj hjm, hbit j hj hjm]
  · rw [encodedReg_bit_two_pow h1 hmax ht]
    refine xorOver_congr fun j hj => ?_
    obtain ⟨hj1, hjm⟩ := mem_positions.1 (List.mem_of_mem_filter hj)
    exact hbit j hj1 hjm

/-- Settles O56: POPULATE leaves a clean register, and a clean codeword has syndrome 0. -/
theorem populatedCodewordIsClean : Obligations.PopulatedCodewordIsClean := by
  unfold Obligations.PopulatedCodewordIsClean
  intro rd s t hinv hst ht
  have hclean : (t.arch.reg rd).Clean := by
    rw [exec_populate_of_spaced hst] at ht
    obtain rfl := Host.Outcome.next.inj ht
    simpa only [Arch.reg_setReg] using populatedReg_clean (Arch.Inv.reg hinv rd) hst
  exact ⟨hclean.2, exec_syndrome_of_clean hclean⟩

end Sys2Proof.Machine
end

section
/-! The mutation commands of 42_mutation.md on the machine: FLIP toggles one bit and is its own inverse, and CLONE copies
a register's triple in every lifecycle state. -/

namespace Sys2Proof.Machine

variable {c : Config}

/-! ### The flipped register -/

@[simp] theorem flippedReg_len (x : CodewordReg c) (pos : Nat) : (flippedReg x pos).len = x.len := rfl
@[simp] theorem flippedReg_st (x : CodewordReg c) (pos : Nat) : (flippedReg x pos).st = x.st := rfl
@[simp] theorem flippedReg_length (x : CodewordReg c) (pos : Nat) : (flippedReg x pos).length = x.length := rfl

theorem flippedReg_bit_same (x : CodewordReg c) {pos : Nat} (h1 : 1 ≤ pos) (h2 : pos ≤ c.nMax) :
    (flippedReg x pos).bit pos = !x.bit pos := by
  rw [flippedReg_bit x h1 h2, decide_eq_true rfl, Bool.xor_true]

theorem flippedReg_bit_of_ne (x : CodewordReg c) {pos i : Nat} (h1 : 1 ≤ pos) (h2 : pos ≤ c.nMax) (hi : i ≠ pos) :
    (flippedReg x pos).bit i = x.bit i := by
  rw [flippedReg_bit x h1 h2, decide_eq_false hi, Bool.xor_false]

/-! ### The commands on the machine -/

theorem flipAllowed_eq_false_iff (st : Lifecycle) : flipAllowed st = false ↔ st = .empty ∨ st = .spaced := by
  cases st <;> simp [flipAllowed]

/-- FLIP completes in PAYLOAD and POPULATED at a position within the length (R120). -/
theorem exec_flip_of_allowed {rd : Reg} {pos : Nat} {s : State} (hst : flipAllowed (s.arch.reg rd).st = true)
    (h1 : 1 ≤ pos) (h2 : pos ≤ (s.arch.reg rd).length) :
    exec (.flip rd pos) s = .next { s with arch := s.arch.setReg rd (flippedReg (s.arch.reg rd) pos) } :=
  exec_of_ok (flip_ok hst h1 h2)

/-- CLONE completes in every state (R121). -/
theorem exec_clone (rd rs : Reg) (s : State) :
    exec (.clone rd rs) s = .next { s with arch := s.arch.setReg rd (s.arch.reg rs) } :=
  exec_of_ok rfl

/-! ### The obligations -/

/-- Settles O24: the invariant bounds the length by N_MAX, so the register holds every position FLIP accepts. -/
theorem flipTogglesOneBit : Obligations.FlipTogglesOneBit := by
  unfold Obligations.FlipTogglesOneBit
  refine fun rd pos s => ⟨fun hinv hst h1 h2 => ?completes, fun hst => ?sequence, fun hst hpos => ?range⟩
  case completes =>
    have hmax : pos ≤ Config.reference.nMax := h2.trans (Arch.Inv.reg hinv rd).length_le
    refine ⟨_, exec_flip_of_allowed ((flipAllowed_iff _).2 hst) h1 h2, ?_⟩
    simp only [Arch.reg_setReg]
    exact ⟨flippedReg_bit_same _ h1 hmax, fun i hi => flippedReg_bit_of_ne _ h1 hmax hi, flippedReg_len _ _,
      flippedReg_st _ _, onlyRegChanges_setReg s rd _⟩
  case sequence => exact refuses_of_error (flip_error_sequence ((flipAllowed_eq_false_iff _).2 hst))
  case range => exact refuses_of_error (flip_error_range ((flipAllowed_iff _).2 hst) hpos)

/-- Settles O59: the first FLIP keeps LEN and ST, so the second completes too and toggles the same bit back. -/
theorem flipTwiceRestoresState : Obligations.FlipTwiceRestoresState := by
  unfold Obligations.FlipTwiceRestoresState
  intro rd pos s hst h1 h2
  have hallowed := (flipAllowed_iff _).2 hst
  refine ⟨_, exec_flip_of_allowed hallowed h1 h2, ?_⟩
  rw [exec_flip_of_allowed (by simpa using hallowed) h1 (by simpa using h2)]
  simp [flippedReg_twice]

/-- Settles O26: what is written to `rd` is the triple of `rs`, so for `rd = rs` the write changes nothing. -/
theorem cloneCopiesRegister : Obligations.CloneCopiesRegister := by
  unfold Obligations.CloneCopiesRegister
  intro rd rs s
  refine ⟨_, exec_clone rd rs s, ?_⟩
  simp only [Arch.reg_setReg, true_and]
  exact ⟨onlyRegChanges_setReg s rd _, fun h => by rw [h, Arch.setReg_reg]⟩

end Sys2Proof.Machine
end

section
/-! The decoder commands of 43_decoder.md on the machine: LOADC takes a received codeword as it is, and SYNDROME locates
a single flipped bit of a clean codeword. -/

namespace Sys2Proof.Machine

variable {c : Config}

/-! ### The syndrome in SYN -/

/-- The syndrome of a codeword that fits its register is not cut by SYN (R8). -/
theorem CodewordReg.toNat_ofNat_syndrome {x : CodewordReg c} (h : x.length ≤ c.nMax) :
    (BitVec.ofNat c.sw x.syndrome).toNat = x.syndrome :=
  (BitVec.toNat_ofNat _ _).trans (Nat.mod_eq_of_lt (c.syndromeValue_lt x.bit h))

/-- One flipped bit of a clean codeword makes the syndrome the bit's position (R133). -/
theorem CodewordReg.Clean.flippedReg_syndrome {x : CodewordReg c} (hclean : x.Clean) (hx : x.WF) {pos : Nat}
    (h1 : 1 ≤ pos) (h2 : pos ≤ x.length) : (flippedReg x pos).syndrome = pos := by
  rw [Machine.flippedReg_syndrome hx h1 h2, hclean.syndrome_eq_zero, Nat.zero_xor]

/-! ### The command on the machine -/

/-- SYNDROME completes in POPULATED (R131). -/
theorem exec_syndrome_of_populated {rd : Reg} {s : State} (h : (s.arch.reg rd).st = .populated) :
    exec (.syndrome rd) s = .next { s with arch := { s.arch with
      syn := BitVec.ofNat Config.reference.sw (s.arch.reg rd).syndrome
      status := syndromeFlags s.arch.status (s.arch.reg rd).syndrome (s.arch.reg rd).length } } :=
  exec_of_ok (syndrome_ok h)

/-! ### The obligations -/

/-- Settles O21: the conditions for completing and for the fault are each other's negation. -/
theorem loadcLoadsReceivedCodeword : Obligations.LoadcLoadsReceivedCodeword := by
  unfold Obligations.LoadcLoadsReceivedCodeword
  intro rd n s
  simp only [ne_eq, shiftRight_eq_zero_iff]
  exact ⟨fun h1 hmax hfits => exec_load_of_ok (loadc_ok h1 hmax hfits) hmax, fun h => refuses_of_error (loadc_error h)⟩

/-- Settles O25: the invariant bounds the length by N_MAX, so SYN holds the whole syndrome. -/
theorem syndromeWritesSynAndFlags : Obligations.SyndromeWritesSynAndFlags := by
  unfold Obligations.SyndromeWritesSynAndFlags
  refine fun rd s => ⟨fun hinv hst => ?_, fun hst => refuses_of_error (syndrome_error hst)⟩
  exact ⟨_, exec_syndrome_of_populated hst, CodewordReg.toNat_ofNat_syndrome (Arch.Inv.reg hinv rd).length_le,
    syndromeFlags_sv _ _ _, decide_eq_true_iff, decide_eq_true_iff, syndromeFlags_err _ _ _,
    syndromeFlags_cause _ _ _, rfl, rfl, rfl, rfl, rfl⟩

/-- Settles O57: the syndrome after the FLIP is the position, which is not 0 and not above LEN. -/
theorem singleErrorIsLocated : Obligations.SingleErrorIsLocated := by
  unfold Obligations.SingleErrorIsLocated
  intro rd pos s hinv hclean h1 h2
  have hwf := Arch.Inv.reg hinv rd
  have hsyn := hclean.flippedReg_syndrome hwf h1 h2
  have hSYN := CodewordReg.toNat_ofNat_syndrome (x := flippedReg (s.arch.reg rd) pos) hwf.length_le
  rw [hsyn] at hSYN
  refine ⟨_, _, exec_flip_of_allowed ((flipAllowed_iff _).2 (.inr hclean.1)) h1 h2,
    exec_syndrome_of_populated (by simpa using hclean.1), ?_⟩
  simp only [Arch.reg_setReg, syndromeFlags_sz, syndromeFlags_soor, flippedReg_length, hsyn]
  exact ⟨hSYN, decide_eq_false (Nat.ne_of_gt h1), decide_eq_false (Nat.not_lt.2 h2)⟩

end Sys2Proof.Machine
end

section
/-! The control command of 44_control.md on the machine: CLRERR. -/

namespace Sys2Proof.Machine

/-! ### The command on the machine -/

/-- CLRERR completes in every state (R145). -/
theorem exec_clrerr (s : State) :
    exec .clrerr s = .next { s with arch := { s.arch with status := clearedStatus s.arch.status, ecmd := 0x0000 } } :=
  exec_of_ok rfl

/-- CLRERR leaves no fault, whose cause code is 0 (R151). -/
theorem causeCode_clearedStatus (x : Status) : causeCode (clearedStatus x).cause = 0 :=
  congrArg causeCode (clearedStatus_cause x)

/-! ### The obligations -/

/-- Settles O27: CLRERR writes ECMD and the two error fields of STATUS, so every other field is the one it was. -/
theorem clrerrClearsErrorState : Obligations.ClrerrClearsErrorState := by
  unfold Obligations.ClrerrClearsErrorState
  intro s
  exact ⟨_, exec_clrerr s, clearedStatus_err _, causeCode_clearedStatus _, rfl, rfl, rfl, rfl,
    clearedStatus_sv _, clearedStatus_sz _, clearedStatus_soor _, rfl, rfl⟩

end Sys2Proof.Machine
end

section
/-! The illegal words of 60_exceptions.md (R152): the opcode map of 30_encoding.md read opcode by opcode, and the fault
a transaction on an illegal word takes in every configuration. -/

namespace Sys2Proof

/-! ### The fields and the rows of one opcode -/

theorem rdBit_eq_false_iff (w : CommandWord) : w.getLsbD 11 = false ↔ rdOf w ≠ .r1 := by
  rw [rdOf]; cases w.getLsbD 11 <;> decide

theorem rsBit_eq_false_iff (w : CommandWord) : w.getLsbD 10 = false ↔ rsOf w ≠ .r1 := by
  rw [rsOf]; cases w.getLsbD 10 <;> decide

/-- The opcodes by the fields their row uses: none, RD, RD and IMM, RD and RS, or OPC alone (R60 to R68). -/
theorem opcode_cases (o : BitVec 4) :
    (o = 0x0 ∨ 0xA#4 ≤ o) ∨ (o = 0x1 ∨ o = 0x4 ∨ o = 0x5 ∨ o = 0x7) ∨ (o = 0x2 ∨ o = 0x3 ∨ o = 0x6) ∨
      o = 0x8 ∨ o = 0x9 := by
  revert o; decide

/-- Nine opcodes have a row; a word of another is ILLEGAL whatever its other fields. -/
theorem decode_of_reserved {w : CommandWord} (h : opcOf w = 0x0 ∨ 0xA#4 ≤ opcOf w) : decode w = .illegal := by
  have hrow : opcOf w ∉ [0x1#4, 0x2#4, 0x3#4, 0x4#4, 0x5#4, 0x6#4, 0x7#4, 0x8#4, 0x9#4] := by
    revert h; generalize opcOf w = o; revert o; decide
  simp only [List.mem_cons, List.not_mem_nil, or_false, not_or] at hrow
  simp [decode_fields, hrow]

/-! A word of an opcode with a row is ILLEGAL if Z or a field the row does not use is nonzero. -/

theorem decode_eq_illegal_iff_of_rd_row {w : CommandWord}
    (h : opcOf w = 0x1 ∨ opcOf w = 0x4 ∨ opcOf w = 0x5 ∨ opcOf w = 0x7) :
    decode w = .illegal ↔ zOf w ≠ 0 ∨ immOf w ≠ 0 ∨ rsOf w = .r1 := by
  simp only [decode_fields, rsBit_eq_false_iff]
  rcases h with h | h | h | h <;> simp [h] <;> tauto

theorem decode_eq_illegal_iff_of_rd_imm_row {w : CommandWord} (h : opcOf w = 0x2 ∨ opcOf w = 0x3 ∨ opcOf w = 0x6) :
    decode w = .illegal ↔ zOf w ≠ 0 ∨ rsOf w = .r1 := by
  simp only [decode_fields, rsBit_eq_false_iff]
  rcases h with h | h | h <;> simp [h] <;> tauto

theorem decode_eq_illegal_iff_of_rd_rs_row {w : CommandWord} (h : opcOf w = 0x8) :
    decode w = .illegal ↔ zOf w ≠ 0 ∨ immOf w ≠ 0 := by
  simp [decode_fields, h]
  tauto

theorem decode_eq_illegal_iff_of_fixed_row {w : CommandWord} (h : opcOf w = 0x9) :
    decode w = .illegal ↔ zOf w ≠ 0 ∨ immOf w ≠ 0 ∨ rsOf w = .r1 ∨ rdOf w = .r1 := by
  simp only [decode_fields, rsBit_eq_false_iff, rdBit_eq_false_iff]
  simp [h]
  tauto

/-- R152: a reserved opcode, a nonzero Z, or a nonzero field that the row of the opcode does not use. -/
theorem decode_eq_illegal_iff (w : CommandWord) :
    decode w = .illegal ↔
      opcOf w = 0x0 ∨ 0xA#4 ≤ opcOf w ∨
      zOf w ≠ 0 ∨
      (immOf w ≠ 0 ∧ opcOf w ∈ [0x1#4, 0x4#4, 0x5#4, 0x7#4, 0x8#4, 0x9#4]) ∨
      (rsOf w = .r1 ∧ opcOf w ≠ 0x8) ∨
      (rdOf w = .r1 ∧ opcOf w = 0x9) := by
  rcases opcode_cases (opcOf w) with hreserved | hrd | hrdimm | hrdrs | hfixed
  · simp only [decode_of_reserved hreserved, ← or_assoc, hreserved, true_or]
  · rw [decode_eq_illegal_iff_of_rd_row hrd]
    rcases hrd with h | h | h | h <;> simp [h]
  · rw [decode_eq_illegal_iff_of_rd_imm_row hrdimm]
    rcases hrdimm with h | h | h <;> simp [h]
  · rw [decode_eq_illegal_iff_of_rd_rs_row hrdrs]
    simp [hrdrs]
  · rw [decode_eq_illegal_iff_of_fixed_row hfixed]
    simp [hfixed]

end Sys2Proof

namespace Sys2Proof.Machine

variable {c : Config}

theorem Arch.step_of_illegal {w : CommandWord} (h : decode w = .illegal) (a : Arch c) (din : BitVec c.nMax) :
    a.step w din = a.raiseFault w .illegal := by
  rw [Arch.step, h]

/-! ### The obligation -/

/-- Settles O5: every opcode has at most one row, and the word is that row's command exactly if Z and the fields the row
does not use are 0. -/
theorem illegalWords : Obligations.IllegalWords := by
  unfold Obligations.IllegalWords
  refine ⟨fun c a w din h => ?_, decode_eq_illegal_iff⟩
  rw [Arch.step_of_illegal h]
  exact a.raiseFault_refused w .illegal

end Sys2Proof.Machine
end

section
/-! The faults of the commands (60_exceptions.md R153 to R155): the condition on which each command's pseudocode raises
each cause, and what a step that raises ERR has changed. -/

namespace Sys2Proof.Machine

variable {c : Config}

/-! ### The fault fields of STATUS -/

theorem Arch.step_of_error {w : CommandWord} {i : Instr} {din : BitVec c.nMax} {a : Arch c} {f : FaultCause}
    (hd : decode w = .command i) (h : perform i din a = .error f) : a.step w din = a.raiseFault w f := by
  rw [Arch.step, hd]
  exact congrArg (a.commit w) h

/-- A command that completes leaves ERR and CAUSE, or clears both; it raises neither. -/
theorem perform_ok_fault_fields {i : Instr} {din : BitVec c.nMax} {a a' : Arch c} (h : perform i din a = .ok a') :
    (a'.status.err = a.status.err ∧ a'.status.cause = a.status.cause) ∨
      (a'.status.err = false ∧ a'.status.cause = none) := by
  obtain ⟨rd, x, -, rfl⟩ | ⟨rd, -, -, rfl⟩ | ⟨-, rfl⟩ := perform_ok_cases h
  · exact .inl (by simp)
  · exact .inl ⟨syndromeFlags_err _ _ _, syndromeFlags_cause _ _ _⟩
  · exact .inr ⟨clearedStatus_err _, clearedStatus_cause _⟩

/-- A commit that takes ERR from 0 to 1 committed a fault of the command. -/
theorem Arch.refusedWith_commit_of_err_rises {i : Instr} {din : BitVec c.nMax} {a : Arch c} {w : CommandWord}
    (hzero : a.status.err = false) (hone : (a.commit w (perform i din a)).status.err = true) :
    ∃ f, a.RefusedWith w f (a.commit w (perform i din a)) := by
  cases hp : perform i din a with
  | ok a' =>
    have hstays : a'.status.err = false := (perform_ok_fault_fields hp).elim (·.1.trans hzero) (·.1)
    rw [hp, Arch.commit_ok, hstays] at hone
    cases hone
  | error f => exact ⟨f, a.raiseFault_refused w f⟩

/-- With ERR = 0 a command leaves the cause `f` exactly if its pseudocode raises `f`. -/
theorem exec_cause_iff {i : Instr} {s t : State} {f : FaultCause} (hinv : s.Inv) (hfree : s.FaultFree)
    (h : exec i s = .next t) : t.arch.status.cause = some f ↔ perform i s.port.din s.arch = .error f := by
  rw [exec_eq] at h
  obtain rfl := Host.Outcome.next.inj h
  have hnone : s.arch.status.cause = none := hinv.status_wf.cause_of_no_err hfree
  cases hp : perform i s.port.din s.arch with
  | ok a' =>
    have hstays : a'.status.cause = none := (perform_ok_fault_fields hp).elim (·.2.trans hnone) (·.2)
    simp [hstays]
  | error g =>
    obtain ⟨-, -, -, -, -, -, htaken, -⟩ := s.arch.raiseFault_refused s.port.cmd g
    obtain ⟨-, hcause, -⟩ := htaken hfree
    simp [hcause]

/-! ### When each command faults -/

/-- What raises `e` on a condition and completes otherwise raises a fault on that condition only, and it is `e`. -/
theorem eq_error_iff_of_cases {α : Type} {r : Except FaultCause α} {P : Prop} {e : FaultCause}
    (hok : ¬P → ∃ x, r = .ok x) (herror : P → r = .error e) (f : FaultCause) : r = .error f ↔ f = e ∧ P := by
  by_cases h : P
  · simp [herror h, h, eq_comm]
  · obtain ⟨x, rfl⟩ := hok h
    simp [h]

theorem loadi_eq_error_iff {rd : Reg} {din : BitVec c.nMax} {a : Arch c} {f : FaultCause} :
    loadi rd din a = .error f ↔ f = .length ∧ c.mMax < mw din.toNat :=
  eq_error_iff_of_cases (fun h => ⟨_, loadi_ok (Nat.not_lt.1 h)⟩) loadi_error f

theorem loadb_eq_error_iff {rd : Reg} {m : Nat} {din : BitVec c.nMax} {a : Arch c} {f : FaultCause} :
    loadb rd m din a = .error f ↔ f = .length ∧ (m = 0 ∨ c.mMax < m ∨ din.toNat >>> m ≠ 0) := by
  rw [ne_eq, shiftRight_eq_zero_iff, ← Nat.lt_one_iff]
  refine eq_error_iff_of_cases (fun h => ?_) loadb_error f
  simp only [not_or, not_not] at h
  obtain ⟨h1, hmax, hfits⟩ := h
  exact ⟨_, loadb_ok (Nat.not_lt.1 h1) (Nat.not_lt.1 hmax) hfits⟩

theorem loadc_eq_error_iff {rd : Reg} {n : Nat} {din : BitVec c.nMax} {a : Arch c} {f : FaultCause} :
    loadc rd n din a = .error f ↔ f = .length ∧ (n = 0 ∨ c.nMax < n ∨ din.toNat >>> n ≠ 0) := by
  rw [ne_eq, shiftRight_eq_zero_iff, ← Nat.lt_one_iff]
  refine eq_error_iff_of_cases (fun h => ?_) loadc_error f
  simp only [not_or, not_not] at h
  obtain ⟨h1, hmax, hfits⟩ := h
  exact ⟨_, loadc_ok (Nat.not_lt.1 h1) (Nat.not_lt.1 hmax) hfits⟩

theorem space_eq_error_iff {rd : Reg} {a : Arch c} {f : FaultCause} :
    space rd a = .error f ↔ f = .sequence ∧ (a.reg rd).st ≠ .payload :=
  eq_error_iff_of_cases (fun h => ⟨_, space_ok (not_not.1 h)⟩) space_error f

theorem populate_eq_error_iff {rd : Reg} {a : Arch c} {f : FaultCause} :
    populate rd a = .error f ↔ f = .sequence ∧ (a.reg rd).st ≠ .spaced :=
  eq_error_iff_of_cases (fun h => ⟨_, populate_ok (not_not.1 h)⟩) populate_error f

theorem syndrome_eq_error_iff {rd : Reg} {a : Arch c} {f : FaultCause} :
    syndrome rd a = .error f ↔ f = .sequence ∧ (a.reg rd).st ≠ .populated :=
  eq_error_iff_of_cases (fun h => ⟨_, syndrome_ok (not_not.1 h)⟩) syndrome_error f

/-- FLIP is the one command with two causes, SEQUENCE before RANGE (R120, R156). -/
theorem flip_eq_error_iff {rd : Reg} {pos : Nat} {a : Arch c} {f : FaultCause} :
    flip rd pos a = .error f ↔
      (f = .sequence ∧ (a.reg rd).st ≠ .payload ∧ (a.reg rd).st ≠ .populated) ∨
      (f = .range ∧ ((a.reg rd).st = .payload ∨ (a.reg rd).st = .populated) ∧
        (pos = 0 ∨ (a.reg rd).length < pos)) := by
  rw [← not_or, ← flipAllowed_iff, ← Nat.lt_one_iff]
  cases hst : flipAllowed (a.reg rd).st with
  | false => simp [flip_error_sequence hst, eq_comm]
  | true =>
    simp only [not_true_eq_false, and_false, false_or, true_and]
    refine eq_error_iff_of_cases (fun h => ?_) (flip_error_range hst) f
    simp only [not_or, Nat.not_lt] at h
    exact ⟨_, flip_ok hst h.1 h.2⟩

theorem clone_ne_error {rd rs : Reg} {a : Arch c} {f : FaultCause} : clone rd rs a ≠ .error f := nofun

theorem clrerr_ne_error {a : Arch c} {f : FaultCause} : clrerr a ≠ .error f := nofun

/-! ### When each cause is raised -/

/-- The condition of R153: the lifecycle states a command's row of the table does not allow. -/
def Arch.SequenceCondition (a : Arch c) (i : Instr) : Prop :=
  (∃ rd, i = .space rd ∧ (a.reg rd).st ≠ .payload) ∨
  (∃ rd, i = .populate rd ∧ (a.reg rd).st ≠ .spaced) ∨
  (∃ rd pos, i = .flip rd pos ∧ (a.reg rd).st ≠ .payload ∧ (a.reg rd).st ≠ .populated) ∨
  (∃ rd, i = .syndrome rd ∧ (a.reg rd).st ≠ .populated)

/-- The condition of R154 for RANGE, where no SEQUENCE stands before it (R156). -/
def Arch.RangeCondition (a : Arch c) (i : Instr) : Prop :=
  ∃ rd pos, i = .flip rd pos ∧ ((a.reg rd).st = .payload ∨ (a.reg rd).st = .populated) ∧
    (pos = 0 ∨ (a.reg rd).length < pos)

/-- The condition of R154 for LENGTH. -/
def LengthCondition (c : Config) (din : BitVec c.nMax) (i : Instr) : Prop :=
  (∃ rd, i = .loadi rd ∧ c.mMax < mw din.toNat) ∨
  (∃ rd m, i = .loadb rd m ∧ (m = 0 ∨ c.mMax < m ∨ din.toNat >>> m ≠ 0)) ∨
  (∃ rd n, i = .loadc rd n ∧ (n = 0 ∨ c.nMax < n ∨ din.toNat >>> n ≠ 0))

/-- Every fault a command's pseudocode raises, in every configuration. No command raises ILLEGAL. -/
theorem perform_eq_error_iff {i : Instr} {din : BitVec c.nMax} {a : Arch c} {f : FaultCause} :
    perform i din a = .error f ↔
      (f = .sequence ∧ a.SequenceCondition i) ∨ (f = .range ∧ a.RangeCondition i) ∨
        (f = .length ∧ LengthCondition c din i) := by
  simp only [Arch.SequenceCondition, Arch.RangeCondition, LengthCondition]
  cases i with
  | loadi rd => simp [perform, loadi_eq_error_iff]
  | loadb rd m => simp [perform, loadb_eq_error_iff]
  | loadc rd n => simp [perform, loadc_eq_error_iff]
  | space rd => simp [perform, space_eq_error_iff]
  | populate rd => simp [perform, populate_eq_error_iff]
  | flip rd pos => simp [perform, flip_eq_error_iff]
  | syndrome rd => simp [perform, syndrome_eq_error_iff]
  | clone rd rs => simp [perform, clone_ne_error]
  | clrerr => simp [perform, clrerr_ne_error]

theorem perform_eq_sequence_iff {i : Instr} {din : BitVec c.nMax} {a : Arch c} :
    perform i din a = .error .sequence ↔ a.SequenceCondition i := by
  simp [perform_eq_error_iff]

theorem perform_eq_range_iff {i : Instr} {din : BitVec c.nMax} {a : Arch c} :
    perform i din a = .error .range ↔ a.RangeCondition i := by
  simp [perform_eq_error_iff]

theorem perform_eq_length_iff {i : Instr} {din : BitVec c.nMax} {a : Arch c} :
    perform i din a = .error .length ↔ LengthCondition c din i := by
  simp [perform_eq_error_iff]

/-! ### The obligations -/

/-- Settles O29: a fault is taken by one operation, and a step raises ERR in no other way. -/
theorem faultsArePrecise : Obligations.FaultsArePrecise := by
  unfold Obligations.FaultsArePrecise
  constructor
  · rintro c a w din f (⟨hd, rfl⟩ | ⟨i, hd, hp⟩)
    · exact Arch.step_of_illegal hd a din ▸ a.raiseFault_refused w .illegal
    · exact Arch.step_of_error hd hp ▸ a.raiseFault_refused w f
  · intro s t h hzero hone
    obtain ⟨-, hs⟩ | ⟨p, rest, -, ⟨-, hs⟩ | ⟨-, i, -, hs⟩ | ⟨-, -, hs⟩⟩ := step_cases s
    · cases hs.symm.trans h
      cases hzero.symm.trans hone
    · cases hs.symm.trans h
      cases hone
    · rw [exec_eq] at hs
      cases hs.symm.trans h
      exact Arch.refusedWith_commit_of_err_rises hzero hone
    · cases hs.symm.trans h
      exact ⟨.illegal, s.arch.raiseFault_refused p.cmd .illegal⟩

/-- Settles O32: CAUSE names the fault that the pseudocode raised, and R153 is when that is SEQUENCE. -/
theorem sequenceConditions : Obligations.SequenceConditions := by
  unfold Obligations.SequenceConditions
  exact fun i s t hinv hfree h => (exec_cause_iff hinv hfree h).trans perform_eq_sequence_iff

/-- Settles O33: CAUSE names the fault that the pseudocode raised, and R154 is when that is RANGE or LENGTH. -/
theorem rangeAndLengthConditions : Obligations.RangeAndLengthConditions := by
  unfold Obligations.RangeAndLengthConditions
  exact fun i s t hinv hfree h => ⟨(exec_cause_iff hinv hfree h).trans perform_eq_range_iff,
    (exec_cause_iff hinv hfree h).trans perform_eq_length_iff⟩

end Sys2Proof.Machine
end

section
/-! Decoding and encoding as inverse maps between the legal words and the well-formed commands (30_encoding.md sections 2
and 3), and the words of the assembler's lines (R73). -/

namespace Sys2Proof

/-! ### The opcode map, row by row -/

/-- A word that is the encoding of a well-formed command decodes to it. -/
theorem decode_of_encode_eq {w : CommandWord} {i : Instr} (h : encode i = w) (hwf : i.wellFormed = true) :
    decode w = .command i :=
  h ▸ decode_encode hwf

/-- IMM is what the mask 0x7F keeps of the word (R58). -/
theorem toNat_and_0x7F (w : CommandWord) : (w &&& 0x7F).toNat = immOf w := by
  simpa [immOf, BitVec.extractLsb'_toNat] using Nat.and_two_pow_sub_one_eq_mod w.toNat 7

/-! ### The obligations -/

/-- Settles O3: a well-formed command's operands all fit their fields, so its word gives them back. -/
theorem decodeOfEncode : Obligations.DecodeOfEncode := by
  unfold Obligations.DecodeOfEncode
  exact fun i h => decode_encode h

/-- Settles O4: the row that a legal word matches fixes every field but the operands. -/
theorem encodeOfDecode : Obligations.EncodeOfDecode := by
  unfold Obligations.EncodeOfDecode
  exact fun w i h => encode_of_decode h

/-- Settles O2: `decode` tries the rows in order; and a word that matches a row is the encoding of the row's command, so
no earlier row takes it. -/
theorem decodeFollowsOpcodeMap : Obligations.DecodeFollowsOpcodeMap := by
  unfold Obligations.DecodeFollowsOpcodeMap
  intro w i
  simp only [toNat_and_0x7F]
  constructor
  · intro h
    rw [decode_eq] at h
    repeat' split at h
    all_goals cases h -- the nine rows remain, in their order
    next hloadi => exact .inl ⟨hloadi, rfl⟩
    next hloadb => exact .inr (.inl ⟨hloadb, rfl⟩)
    next hloadc => exact .inr (.inr (.inl ⟨hloadc, rfl⟩))
    next hspace => exact .inr (.inr (.inr (.inl ⟨hspace, rfl⟩)))
    next hpopulate => exact .inr (.inr (.inr (.inr (.inl ⟨hpopulate, rfl⟩))))
    next hflip => exact .inr (.inr (.inr (.inr (.inr (.inl ⟨hflip, rfl⟩)))))
    next hsyndrome => exact .inr (.inr (.inr (.inr (.inr (.inr (.inl ⟨hsyndrome, rfl⟩))))))
    next hclone => exact .inr (.inr (.inr (.inr (.inr (.inr (.inr (.inl ⟨hclone, rfl⟩)))))))
    next hclrerr => exact .inr (.inr (.inr (.inr (.inr (.inr (.inr (.inr ⟨hclrerr, rfl⟩)))))))
  · rintro (⟨h, rfl⟩ | ⟨h, rfl⟩ | ⟨h, rfl⟩ | ⟨h, rfl⟩ | ⟨h, rfl⟩ | ⟨h, rfl⟩ | ⟨h, rfl⟩ | ⟨h, rfl⟩ | ⟨h, rfl⟩)
    · exact decode_of_encode_eq (packFields_of_rd_row ((mask_F7FF_iff w 0x1).1 h)) rfl
    · exact decode_of_encode_eq (packFields_of_rd_imm_row ((mask_F780_iff w 0x2).1 h)) (fitsImm_immOf w)
    · exact decode_of_encode_eq (packFields_of_rd_imm_row ((mask_F780_iff w 0x3).1 h)) (fitsImm_immOf w)
    · exact decode_of_encode_eq (packFields_of_rd_row ((mask_F7FF_iff w 0x4).1 h)) rfl
    · exact decode_of_encode_eq (packFields_of_rd_row ((mask_F7FF_iff w 0x5).1 h)) rfl
    · exact decode_of_encode_eq (packFields_of_rd_imm_row ((mask_F780_iff w 0x6).1 h)) (fitsImm_immOf w)
    · exact decode_of_encode_eq (packFields_of_rd_row ((mask_F7FF_iff w 0x7).1 h)) rfl
    · exact decode_of_encode_eq (packFields_of_rd_rs_row ((mask_F3FF_iff w 0x8).1 h)) rfl
    · exact decode_of_encode_eq (packFields_of_fixed_row ((mask_FFFF_iff w 0x9).1 h)) rfl

/-- Settles O1: the words are fixed, so `decode` is evaluated on each. -/
theorem decodeOfWrittenWords : Obligations.DecodeOfWrittenWords := by
  unfold Obligations.DecodeOfWrittenWords
  decide

end Sys2Proof

namespace Sys2Proof.Machine

variable {c : Config}

/-! ### The assembler -/

/-- What the assembler accepts: a well-formed command, and a din value, if one is written, that fits the port. -/
theorem wellFormed_and_din_lt_of_asmAccepts {l : AsmLine} (h : asmAccepts c l = true) :
    l.instr.wellFormed = true ∧ l.din.getD 0 < 2 ^ c.nMax := by
  obtain ⟨i, din⟩ := l
  cases din with
  | none => exact ⟨by simpa [asmAccepts] using h, Nat.two_pow_pos _⟩
  | some v =>
    obtain ⟨hwf, -, hv⟩ : i.wellFormed = true ∧ i.readsDin = true ∧ v < 2 ^ c.nMax := by
      simpa [asmAccepts] using h
    exact ⟨hwf, hv⟩

/-- Settles O7: an accepted line's operands fit the word, and its din value fits the port. -/
theorem assembledLineDecodes : Obligations.AssembledLineDecodes := by
  unfold Obligations.AssembledLineDecodes
  intro c l p h
  rw [assembleLine] at h
  split at h
  · next haccepts =>
    cases h
    obtain ⟨hwf, hdin⟩ := wellFormed_and_din_lt_of_asmAccepts haccepts
    exact ⟨decode_encode hwf, by rw [BitVec.toNat_ofNat, Nat.mod_eq_of_lt hdin], rfl⟩
  · cases h

end Sys2Proof.Machine
end

section
/-! Steps and runs of the machine (20_memory.md R43, R51; 70_reset_and_hazards.md R180): a step presents the oldest
queued sample to the architectural state, and a run presents them in order. -/

namespace Sys2Proof.Machine

variable {c : Config}

/-! ### One sample -/

theorem Arch.present_of_rst {p : PortSample c} (h : p.rst = true) (a : Arch c) : a.present p = Arch.reset c := by
  simp [Arch.present, h]

theorem Arch.present_of_not_rst {p : PortSample c} (h : p.rst = false) (a : Arch c) :
    a.present p = a.step p.cmd p.din := by
  simp [Arch.present, h]

theorem Arch.step_of_command {w : CommandWord} {i : Instr} (h : decode w = .command i) (a : Arch c)
    (din : BitVec c.nMax) : a.step w din = a.commit w (perform i din a) := by
  rw [Arch.step, h]

theorem Arch.presentAll_cons (a : Arch c) (p : PortSample c) (ps : List (PortSample c)) :
    a.presentAll (p :: ps) = (a.present p).presentAll ps := rfl

theorem Arch.presentAll_append (a : Arch c) (ps qs : List (PortSample c)) :
    a.presentAll (ps ++ qs) = (a.presentAll ps).presentAll qs := List.foldl_append

/-- Without a reset among them, the samples are transactions one after another. -/
theorem Arch.presentAll_eq_foldl_step {ps : List (PortSample c)} (h : ∀ p ∈ ps, p.rst = false) (a : Arch c) :
    a.presentAll ps = ps.foldl (fun a p => a.step p.cmd p.din) a :=
  List.foldl_ext _ _ _ fun a p hp => Arch.present_of_not_rst (h p hp) a

/-! ### One step -/

theorem step_of_queue_nil {s : State} (h : s.queue = []) : step s = .next s := by
  obtain ⟨-, hs⟩ | ⟨p, rest, hq, -⟩ := step_cases s
  · exact hs
  · cases h.symm.trans hq

/-- A step with a sample queued presents the oldest one to the architectural state; it never stops. -/
theorem step_of_queue_cons {s : State} {p : PortSample Config.reference} {rest : List (PortSample Config.reference)}
    (h : s.queue = p :: rest) : step s = .next { arch := s.arch.present p, port := p, queue := rest } := by
  obtain ⟨hnil, -⟩ | ⟨q, qs, hq, hs⟩ := step_cases s
  · cases h.symm.trans hnil
  · cases h.symm.trans hq
    rcases hs with ⟨hrst, hs⟩ | ⟨hrst, i, hdec, hs⟩ | ⟨hrst, hdec, hs⟩
    · rw [hs, Arch.present_of_rst hrst]
    · rw [hs, exec_eq, Arch.present_of_not_rst hrst, Arch.step_of_command hdec]
      rfl
    · rw [hs, Arch.present_of_not_rst hrst, Arch.step_of_illegal hdec]

/-- A step whose sample is a legal transaction runs its command with the sample at the ports. -/
theorem step_of_command {s : State} {p : PortSample Config.reference} {rest : List (PortSample Config.reference)}
    {i : Instr} (hq : s.queue = p :: rest) (hrst : p.rst = false) (hdec : decode p.cmd = .command i) :
    step s = exec i { s with port := p, queue := rest } := by
  rw [step_of_queue_cons hq, exec_eq, Arch.present_of_not_rst hrst, Arch.step_of_command hdec]

/-! ### The placed word -/

/-- A 16-bit word is placed whole. -/
theorem tableWord_16 {w : Nat} (h : w < 2 ^ 16) : tableWord 16 w = BitVec.ofNat 16 w := by
  rw [tableWord, Nat.mod_eq_of_lt h]

theorem decode_of_decodeTableWord {nbits w : Nat} {i : Instr} (h : decodeTableWord nbits w = some i) :
    decode (tableWord nbits w) = .command i := by
  rw [decodeTableWord] at h
  repeat' split at h
  all_goals cases h
  assumption

/-! ### Runs -/

/-- A run continues from the state its first step leads to. -/
theorem run_succ_of_step {M : Host.Core} {s t : M.State} (h : M.step s = .next t) (k : Nat) :
    M.run (k + 1) s = M.run k t := by
  simp only [Host.Core.run, h]

/-- A run of as many steps as there are samples presents them all, in order, and leaves the later ones queued. -/
theorem core_run_queue (ps rest : List (PortSample Config.reference)) (s : State) :
    ∃ t, core.run ps.length { s with queue := ps ++ rest } = .next t ∧ t.arch = s.arch.presentAll ps ∧
      t.queue = rest := by
  induction ps generalizing s with
  | nil => exact ⟨_, rfl, rfl, rfl⟩
  | cons p ps ih =>
    rw [List.length_cons, run_succ_of_step (M := core) (step_of_queue_cons (List.cons_append ..)), Arch.presentAll_cons]
    exact ih { arch := s.arch.present p, port := p, queue := [] }

/-! ### The obligations -/

/-- Settles O14: each step of the run is one application of `Step`, since no sample is a reset. -/
theorem runAppliesStepInOrder : Obligations.RunAppliesStepInOrder := by
  unfold Obligations.RunAppliesStepInOrder
  intro s ps rest hrst
  obtain ⟨t, hrun, harch, hqueue⟩ := core_run_queue ps rest s
  exact ⟨t, hrun, harch.trans (Arch.presentAll_eq_foldl_step hrst _), hqueue⟩

/-- Settles O8: the command is run on the state with the sample at its ports. -/
theorem stepRunsDecodedCommand : Obligations.StepRunsDecodedCommand := by
  unfold Obligations.StepRunsDecodedCommand
  exact fun s p rest i hq hrst hdec => step_of_command hq hrst hdec

/-- Settles O9: presenting an illegal word takes the fault ILLEGAL. -/
theorem stepRefusesIllegalWord : Obligations.StepRefusesIllegalWord := by
  unfold Obligations.StepRefusesIllegalWord
  intro s p rest hq hrst hdec
  refine ⟨_, step_of_queue_cons hq, ?_, rfl, rfl⟩
  rw [Arch.present_of_not_rst hrst, Arch.step_of_illegal hdec]
  exact s.arch.raiseFault_refused p.cmd .illegal

/-- Settles O10: presenting a sample with `rst` asserted reads neither its word nor its din. -/
theorem resetEventClearsAll : Obligations.ResetEventClearsAll := by
  unfold Obligations.ResetEventClearsAll
  intro s p rest hq hrst
  rw [step_of_queue_cons hq, Arch.present_of_rst hrst]

/-- Settles O11: a step has nothing but the queue to take a transaction from. -/
theorem idleStepChangesNothing : Obligations.IdleStepChangesNothing := by
  unfold Obligations.IdleStepChangesNothing
  exact fun s h => step_of_queue_nil h

/-- Settles O12: the placed word stands before the samples already queued, and leaves them queued when it is taken. -/
theorem placedWordIsRunNext : Obligations.PlacedWordIsRunNext := by
  unfold Obligations.PlacedWordIsRunNext
  intro s w i hw hdec
  rw [← tableWord_16 hw]
  exact step_of_command (State.stageWord_queue s _) rfl (decode_of_decodeTableWord hdec)

/-- Settles O13: presenting a sample that asserts no reset is `Step` on its word and din. -/
theorem stepIsOneTransaction : Obligations.StepIsOneTransaction := by
  unfold Obligations.StepIsOneTransaction
  intro s p rest hq hrst
  rw [step_of_queue_cons hq, Arch.present_of_not_rst hrst]

end Sys2Proof.Machine
end

section
/-! The invariant (10_state.md R25, R26 and the rules of STATUS): it holds at reset, and every sample of the ports keeps
it in every configuration, because each command writes a well-formed register or fields of STATUS that agree. -/

namespace Sys2Proof.Machine

variable {c : Config}

/-! ### The registers that commands write -/

theorem CodewordReg.reset_wf (c : Config) : (CodewordReg.reset c).WF where
  zero_above i _ := CodewordReg.reset_bit i
  empty_iff := iff_of_true rfl rfl
  payload_length := nofun
  spaced_length := nofun
  spaced_slots := nofun
  populated_length := nofun

theorem loadedReg_wf_payload (din : BitVec c.nMax) {m : Nat} (h1 : 1 ≤ m) (hmax : m ≤ c.mMax) :
    (loadedReg c din m .payload).WF :=
  have hn : m ≤ c.nMax := hmax.trans c.mMax_le_nMax
  .of_holds (loadedReg_holds din .payload hn) nofun h1 (fun _ => hmax) nofun nofun hn

theorem loadedReg_wf_populated (din : BitVec c.nMax) {n : Nat} (h1 : 1 ≤ n) (hmax : n ≤ c.nMax) :
    (loadedReg c din n .populated).WF :=
  .of_holds (loadedReg_holds din .populated hmax) nofun h1 nofun nofun nofun hmax

theorem populatedReg_wf {x : CodewordReg c} (hx : x.WF) (hst : x.st = .spaced) : (populatedReg x).WF where
  zero_above _ := populatedReg_above hx
  empty_iff := iff_of_false nofun fun h0 => nomatch hst.symm.trans (hx.empty_iff.2 h0)
  payload_length := nofun
  spaced_length := nofun
  spaced_slots := nofun
  populated_length _ := by
    obtain ⟨m, h1, -, hlen⟩ := hx.spaced_length hst
    exact ⟨by rw [populatedReg_length, hlen]; omega, hx.length_le⟩

theorem flippedReg_wf {x : CodewordReg c} (hx : x.WF) (hst : flipAllowed x.st = true) {pos : Nat} (h1 : 1 ≤ pos)
    (h2 : pos ≤ x.length) : (flippedReg x pos).WF :=
  have not_spaced : x.st ≠ .spaced := fun h => nomatch h ▸ hst
  { zero_above := fun i hi => by
      have habove : x.length < i := hi
      rw [flippedReg_bit_of_ne x h1 (h2.trans hx.length_le) (by omega), hx.zero_above i habove]
    empty_iff := hx.empty_iff
    payload_length := hx.payload_length
    spaced_length := hx.spaced_length
    spaced_slots := fun h => absurd h not_spaced
    populated_length := hx.populated_length }

/-! ### STATUS, SYN and ECMD -/

theorem Arch.reset_statusWF (c : Config) : (Arch.reset c).StatusWF where
  cause_of_err := nofun
  cause_of_no_err _ := rfl
  ecmd_of_no_err _ := rfl
  sz_of_sv := nofun
  soor_sz := nofun
  flags_of_no_sv _ := ⟨rfl, rfl, rfl⟩

theorem ofNat_eq_zero_iff_of_lt {w v : Nat} (h : v < 2 ^ w) : BitVec.ofNat w v = 0 ↔ v = 0 := by
  rw [← BitVec.toNat_inj, BitVec.toNat_ofNat, Nat.mod_eq_of_lt h]
  simp

/-- SYN and the flags of a syndrome that fits SYN agree; a syndrome of 0 is above no length (43_decoder.md R132). -/
theorem Arch.StatusWF.syndrome {a : Arch c} (h : a.StatusWF) {s : Nat} (n : Nat) (hs : s < 2 ^ c.sw) :
    ({ a with syn := BitVec.ofNat c.sw s, status := syndromeFlags a.status s n } : Arch c).StatusWF where
  cause_of_err := h.cause_of_err
  cause_of_no_err := h.cause_of_no_err
  ecmd_of_no_err := h.ecmd_of_no_err
  sz_of_sv _ := decide_eq_decide.2 (ofNat_eq_zero_iff_of_lt hs).symm
  soor_sz := by
    simp only [syndromeFlags_sz, syndromeFlags_soor, decide_eq_true_eq]
    omega
  flags_of_no_sv := nofun

theorem Arch.StatusWF.clrerr {a : Arch c} (h : a.StatusWF) :
    ({ a with status := clearedStatus a.status, ecmd := 0x0000 } : Arch c).StatusWF where
  cause_of_err := nofun
  cause_of_no_err _ := rfl
  ecmd_of_no_err _ := rfl
  sz_of_sv := h.sz_of_sv
  soor_sz := h.soor_sz
  flags_of_no_sv := h.flags_of_no_sv

/-! ### Every command -/

theorem Arch.reset_inv (c : Config) : (Arch.reset c).Inv :=
  ⟨CodewordReg.reset_wf c, CodewordReg.reset_wf c, Arch.reset_statusWF c⟩

/-- Committing a command that completes by writing a well-formed register keeps the invariant. -/
theorem Arch.Inv.commit_setReg {a : Arch c} (h : a.Inv) (w : CommandWord) {r : Except FaultCause (Arch c)} {rd : Reg}
    {x : CodewordReg c} (hr : r = .ok (a.setReg rd x)) (hx : x.WF) : (a.commit w r).Inv := by
  rw [hr, Arch.commit_ok]
  exact h.setReg rd hx

/-- Committing a command that faults keeps the invariant. -/
theorem Arch.Inv.commit_error {a : Arch c} (h : a.Inv) (w : CommandWord) {r : Except FaultCause (Arch c)}
    {f : FaultCause} (hr : r = .error f) : (a.commit w r).Inv := by
  rw [hr, Arch.commit_error]
  exact h.raiseFault w f

/-- A command keeps the invariant, whether it completes or faults. -/
theorem Arch.Inv.commit_perform {a : Arch c} (h : a.Inv) (w : CommandWord) (i : Instr) (din : BitVec c.nMax) :
    (a.commit w (perform i din a)).Inv := by
  cases i with
  | loadi rd =>
    by_cases hmax : mw din.toNat ≤ c.mMax
    · exact h.commit_setReg w (loadi_ok hmax) (loadedReg_wf_payload din (mw_pos _) hmax)
    · exact h.commit_error w (loadi_error (Nat.not_le.1 hmax))
  | loadb rd m =>
    by_cases hbad : m < 1 ∨ c.mMax < m ∨ ¬din.toNat < 2 ^ m
    · exact h.commit_error w (loadb_error hbad)
    · obtain ⟨h1, hmax, hfits⟩ : 1 ≤ m ∧ m ≤ c.mMax ∧ din.toNat < 2 ^ m := by omega
      exact h.commit_setReg w (loadb_ok h1 hmax hfits) (loadedReg_wf_payload din h1 hmax)
  | loadc rd n =>
    by_cases hbad : n < 1 ∨ c.nMax < n ∨ ¬din.toNat < 2 ^ n
    · exact h.commit_error w (loadc_error hbad)
    · obtain ⟨h1, hmax, hfits⟩ : 1 ≤ n ∧ n ≤ c.nMax ∧ din.toNat < 2 ^ n := by omega
      exact h.commit_setReg w (loadc_ok h1 hmax hfits) (loadedReg_wf_populated din h1 hmax)
  | space rd =>
    by_cases hst : (a.reg rd).st = .payload
    · obtain ⟨h1, hmax⟩ := (h.reg rd).payload_length hst
      exact h.commit_setReg w (space_ok hst) (spacedReg_wf h1 hmax)
    · exact h.commit_error w (space_error hst)
  | populate rd =>
    by_cases hst : (a.reg rd).st = .spaced
    · exact h.commit_setReg w (populate_ok hst) (populatedReg_wf (h.reg rd) hst)
    · exact h.commit_error w (populate_error hst)
  | flip rd pos =>
    cases hst : flipAllowed (a.reg rd).st with
    | false => exact h.commit_error w (flip_error_sequence hst)
    | true =>
      by_cases hbad : pos < 1 ∨ (a.reg rd).length < pos
      · exact h.commit_error w (flip_error_range hst hbad)
      · obtain ⟨h1, h2⟩ : 1 ≤ pos ∧ pos ≤ (a.reg rd).length := by omega
        exact h.commit_setReg w (flip_ok hst h1 h2) (flippedReg_wf (h.reg rd) hst h1 h2)
  | syndrome rd =>
    by_cases hst : (a.reg rd).st = .populated
    · rw [perform, syndrome_ok hst, Arch.commit_ok]
      exact ⟨h.r0_wf, h.r1_wf, h.status_wf.syndrome _ (c.syndromeValue_lt _ (h.reg rd).length_le)⟩
    · exact h.commit_error w (syndrome_error hst)
  | clone rd rs => exact h.commit_setReg w rfl (h.reg rs)
  | clrerr => exact ⟨h.r0_wf, h.r1_wf, h.status_wf.clrerr⟩

/-- A transaction keeps the invariant, whatever its word and its din. -/
theorem Arch.Inv.step {a : Arch c} (h : a.Inv) (w : CommandWord) (din : BitVec c.nMax) : (a.step w din).Inv := by
  cases hdec : decode w with
  | command i => exact Arch.step_of_command hdec a din ▸ h.commit_perform w i din
  | illegal => exact Arch.step_of_illegal hdec a din ▸ h.raiseFault w .illegal

/-- A sample of the ports keeps the invariant. -/
theorem Arch.Inv.present {a : Arch c} (h : a.Inv) (p : PortSample c) : (a.present p).Inv := by
  cases hrst : p.rst with
  | true => exact Arch.present_of_rst hrst a ▸ Arch.reset_inv c
  | false => exact Arch.present_of_not_rst hrst a ▸ h.step p.cmd p.din

/-! ### The obligations -/

/-- Settles O16: the registers are EMPTY and STATUS, SYN and ECMD are 0. -/
theorem resetMeetsInvariant : Obligations.ResetMeetsInvariant := by
  unfold Obligations.ResetMeetsInvariant
  exact Arch.reset_inv Config.reference

/-- Settles O18: by the kind of sample: a reset, an illegal word, or one of the nine commands. -/
theorem everyConfigurationKeepsInvariant : Obligations.EveryConfigurationKeepsInvariant := by
  unfold Obligations.EveryConfigurationKeepsInvariant
  exact fun c a p h => h.present p

/-- Settles O17: a step presents the oldest queued sample, or changes nothing. -/
theorem stepKeepsInvariant : Obligations.StepKeepsInvariant := by
  unfold Obligations.StepKeepsInvariant
  intro s t hinv h
  cases hq : s.queue with
  | nil =>
    cases (step_of_queue_nil hq).symm.trans h
    exact hinv
  | cons p rest =>
    cases (step_of_queue_cons hq).symm.trans h
    exact Arch.Inv.present hinv p

end Sys2Proof.Machine
end

section
/-! What commands and steps leave unchanged (41_encoder.md to 44_control.md, 60_exceptions.md R155): the registers other
than the destination, SYN with its flags, a fault already recorded, and the effect of a word that reads no din. -/

namespace Sys2Proof.Machine

variable {c : Config}

/-! ### The frame of a committed command -/

/-- From `a` to `a'` SYN, SV, SZ and SOOR are unchanged (10_state.md R29, R33). -/
def Arch.SynUnchanged (a a' : Arch c) : Prop :=
  a'.syn = a.syn ∧ a'.status.sv = a.status.sv ∧ a'.status.sz = a.status.sz ∧ a'.status.soor = a.status.soor

theorem Arch.SynUnchanged.refl (a : Arch c) : a.SynUnchanged a := ⟨rfl, rfl, rfl, rfl⟩

theorem Arch.raiseFault_synUnchanged (a : Arch c) (w : CommandWord) (f : FaultCause) :
    a.SynUnchanged (a.raiseFault w f) := by
  obtain ⟨-, -, hsyn, hsv, hsz, hsoor, -⟩ := a.raiseFault_refused w f
  exact ⟨hsyn, hsv, hsz, hsoor⟩

/-- A register that is not the command's destination is unchanged, whether the command completes or faults. -/
theorem Arch.reg_commit_perform {a : Arch c} {i : Instr} {r : Reg} (hr : destinationOf i ≠ some r) (w : CommandWord)
    (din : BitVec c.nMax) : (a.commit w (perform i din a)).reg r = a.reg r := by
  cases h : perform i din a with
  | ok a' =>
    obtain ⟨rd, x, hd, rfl⟩ | ⟨rd, -, -, rfl⟩ | ⟨-, rfl⟩ := perform_ok_cases h
    · exact Arch.reg_setReg_ne a x fun hrd => hr (hrd ▸ hd)
    · cases r <;> rfl
    · cases r <;> rfl
  | error f => exact a.reg_raiseFault w f r

/-- A command other than SYNDROME leaves SYN and its flags, whether it completes or faults. -/
theorem Arch.commit_perform_synUnchanged {a : Arch c} {i : Instr} (hi : ∀ rd, i ≠ .syndrome rd) (w : CommandWord)
    (din : BitVec c.nMax) : a.SynUnchanged (a.commit w (perform i din a)) := by
  cases h : perform i din a with
  | ok a' =>
    obtain ⟨rd, x, -, rfl⟩ | ⟨rd, hsyndrome, -⟩ | ⟨-, rfl⟩ := perform_ok_cases h
    · simp [Arch.SynUnchanged]
    · exact absurd hsyndrome (hi rd)
    · simp [Arch.SynUnchanged]
  | error f => exact a.raiseFault_synUnchanged w f

/-- A command other than CLRERR leaves a recorded fault as it is, whether it completes or faults. -/
theorem Arch.commit_perform_fault_kept {a : Arch c} {i : Instr} (hi : i ≠ .clrerr) (hone : a.status.err = true)
    (w : CommandWord) (din : BitVec c.nMax) :
    (a.commit w (perform i din a)).status.err = true ∧
      (a.commit w (perform i din a)).status.cause = a.status.cause ∧
      (a.commit w (perform i din a)).ecmd = a.ecmd := by
  cases h : perform i din a with
  | ok a' =>
    obtain ⟨rd, x, -, rfl⟩ | ⟨rd, -, -, rfl⟩ | ⟨rfl, -⟩ := perform_ok_cases h
    · simp [hone]
    · simp [hone]
    · exact absurd rfl hi
  | error f => simp [Arch.raiseFault_of_err hone, hone]

/-! ### The frame of a step -/

/-- A transaction on a word other than SYNDROME's leaves SYN and its flags. -/
theorem Arch.step_synUnchanged {w : CommandWord} (hw : ∀ rd, decode w ≠ .command (.syndrome rd)) (a : Arch c)
    (din : BitVec c.nMax) : a.SynUnchanged (a.step w din) := by
  cases hdec : decode w with
  | command i =>
    rw [Arch.step_of_command hdec]
    exact Arch.commit_perform_synUnchanged (fun rd hi => hw rd (hi ▸ hdec)) w din
  | illegal =>
    rw [Arch.step_of_illegal hdec]
    exact a.raiseFault_synUnchanged w .illegal

/-- The words of SYNDROME (30_encoding.md R66). -/
theorem eq_of_decode_eq_syndrome {w : CommandWord} {rd : Reg} (h : decode w = .command (.syndrome rd)) :
    w = 0x7000 ∨ w = 0x7800 := by
  obtain ⟨rfl, -⟩ := encode_of_decode h
  cases rd with
  | r0 => exact .inl rfl
  | r1 => exact .inr rfl

/-- Only a reset or SYNDROME can be the sample of a step that changes SYN or its flags. -/
theorem syn_changed_by_step {s t : State} (h : step s = .next t) (hchanged : ¬s.arch.SynUnchanged t.arch) :
    ∃ p rest, s.queue = p :: rest ∧ (p.rst = true ∨ ∃ rd, decode p.cmd = .command (.syndrome rd)) := by
  cases hq : s.queue with
  | nil =>
    cases (step_of_queue_nil hq).symm.trans h
    exact absurd (Arch.SynUnchanged.refl _) hchanged
  | cons p rest =>
    cases (step_of_queue_cons hq).symm.trans h
    refine ⟨p, rest, rfl, or_iff_not_imp_left.2 fun hrst => ?_⟩
    by_contra hw
    rw [Arch.present_of_not_rst (Bool.eq_false_iff.2 hrst)] at hchanged
    exact hchanged (Arch.step_synUnchanged (not_exists.1 hw) _ _)

/-- The pseudocode of a command that is no load does not read din (30_encoding.md R71). -/
theorem perform_eq_of_not_readsDin {i : Instr} (h : i.readsDin = false) (d₁ d₂ : BitVec c.nMax) (a : Arch c) :
    perform i d₁ a = perform i d₂ a := by
  cases i with
  | loadi | loadb | loadc => cases h
  | space | populate | flip | syndrome | clone | clrerr => rfl

/-! ### The obligations -/

/-- Settles O28: the outcome of the pseudocode is committed to the architectural state, and to nothing else. -/
theorem commandFrame : Obligations.CommandFrame := by
  unfold Obligations.CommandFrame
  intro i s t h
  rw [exec_eq] at h
  obtain rfl := Host.Outcome.next.inj h
  exact ⟨fun r hr => Arch.reg_commit_perform hr _ _, fun hi => Arch.commit_perform_synUnchanged hi _ _,
    fun hi hone => Arch.commit_perform_fault_kept hi hone _ _, rfl, rfl⟩

/-- Settles O31: SYNDROME, the one command that writes them, has the two words 0x7000 and 0x7800. -/
theorem onlySyndromeWritesSyn : Obligations.OnlySyndromeWritesSyn := by
  unfold Obligations.OnlySyndromeWritesSyn
  intro s t h hchanged
  have hsyn : ¬s.arch.SynUnchanged t.arch := fun ⟨hsyn, hsv, hsz, hsoor⟩ => by simp [hsyn, hsv, hsz, hsoor] at hchanged
  obtain ⟨p, rest, hq, hp⟩ := syn_changed_by_step h hsyn
  exact ⟨p, rest, hq, hp.imp_right fun ⟨_, hdec⟩ => eq_of_decode_eq_syndrome hdec⟩

/-- Settles O34: an illegal word faults before din is looked at, and a command that is no load does not read it. -/
theorem dinIgnoredExceptByLoads : Obligations.DinIgnoredExceptByLoads := by
  unfold Obligations.DinIgnoredExceptByLoads
  intro c a w d₁ d₂ hw
  cases hdec : decode w with
  | command i =>
    rw [Arch.step_of_command hdec, Arch.step_of_command hdec, perform_eq_of_not_readsDin (hw i hdec) d₁ d₂]
  | illegal => rw [Arch.step_of_illegal hdec, Arch.step_of_illegal hdec]

end Sys2Proof.Machine
end

section
/-! Lengths in their registers (00_scope.md R7 to R10), and the loads as seen at CWOUT (20_memory.md R44, R48): the port
and LEN together hold all that a load puts into a register. -/

namespace Sys2Proof.Machine

variable {c : Config}

/-! ### SW -/

/-- N_MAX is below 128 in every configuration, so SYN needs at most 7 bits (R8, R10). -/
theorem sw_le (c : Config) : c.sw ≤ 7 := (bitlen_le_iff c.nMax 7).2 (Nat.lt_succ_of_le c.nMax_le)

/-! ### CWOUT and LEN give the register -/

theorem CodewordReg.eq_of_fields_eq {x y : CodewordReg c} (hcw : x.cw = y.cw) (hlen : x.len = y.len)
    (hst : x.st = y.st) : x = y := by
  cases x; cases y; cases hcw; cases hlen; cases hst; rfl

/-- The bits within LEN are read back from CWOUT, and those above are 0. -/
theorem CodewordReg.WF.cw_eq {x y : CodewordReg c} (hx : x.WF) (hy : y.WF) (hlen : x.len = y.len)
    (hcwout : x.cwout = y.cwout) : x.cw = y.cw := by
  have hlength : x.length = y.length := congrArg BitVec.toNat hlen
  refine eq_of_bitAt_eq fun i h1 _ => show x.bit i = y.bit i from ?_
  by_cases hi : i ≤ x.length
  · rw [x.bit_eq_getLsbD_cwout hx.length_le h1 hi, y.bit_eq_getLsbD_cwout hy.length_le h1 (hlength ▸ hi), hlength,
      hcwout]
  · rw [hx.zero_above i (by omega), hy.zero_above i (by omega)]

/-- CWOUT has no bit at or above LEN. -/
theorem CodewordReg.toNat_cwout_lt {x : CodewordReg c} (h : x.length ≤ c.nMax) : x.cwout.toNat < 2 ^ x.length := by
  rw [CodewordReg.toNat_cwout h]
  simpa using intOf_lt_two_pow_length x.sequence

/-- A register loaded with a length that holds din shows din (R48). -/
theorem cwout_loadedReg {din : BitVec c.nMax} {L : Nat} (hL : L ≤ c.nMax) (hfits : din.toNat < 2 ^ L) (st : Lifecycle) :
    (loadedReg c din L st).cwout = din := by
  obtain ⟨hlen, -, hbit, -⟩ := loadedReg_holds din st hL
  refine BitVec.eq_of_getLsbD_eq fun j _ => ?_
  rw [testBit_cwout _ (hlen.trans_le hL), hlen]
  by_cases hj : j < L
  · simp only [hbit (L - j) (by omega) (by omega), Nat.sub_sub_self hj.le, decide_eq_true hj, Bool.true_and]
  · have habove : din.toNat < 2 ^ j := hfits.trans_le (Nat.pow_le_pow_right (by decide) (by omega))
    simp [hj, BitVec.getLsbD, Nat.testBit_lt_two_pow habove]

/-- A POPULATED register loaded from CWOUT of another one, at its length, is that register (R130). -/
theorem loadedReg_cwout {x : CodewordReg c} (hx : x.WF) (hst : x.st = .populated) :
    loadedReg c x.cwout x.length .populated = x := by
  obtain ⟨h1, hmax⟩ := hx.populated_length hst
  have hlen : (loadedReg c x.cwout x.length .populated).len = x.len :=
    (BitVec.ofNat_toNat 7 x.len).trans (BitVec.setWidth_eq x.len)
  have hcwout := cwout_loadedReg hmax (CodewordReg.toNat_cwout_lt hmax) .populated
  exact CodewordReg.eq_of_fields_eq ((loadedReg_wf_populated _ h1 hmax).cw_eq hx hlen hcwout) hlen hst.symm

/-! ### The loads -/

/-- A load that completes on the machine with a length that holds din shows din at CWOUT. -/
theorem cwout_of_exec_load {i : Instr} {s t : State} {rd : Reg} {L : Nat} {st : Lifecycle}
    (hload : perform i s.port.din s.arch = .ok (s.arch.setReg rd (loadedReg Config.reference s.port.din L st)))
    (hL : L ≤ Config.reference.nMax) (hfits : s.port.din.toNat < 2 ^ L) (h : exec i s = .next t) :
    (t.arch.reg rd).cwout = s.port.din := by
  cases (exec_of_ok hload).symm.trans h
  rw [Arch.reg_setReg, cwout_loadedReg hL hfits]

/-! ### The obligations -/

/-- Settles O47: `kreq` is monotone, so the longest codeword is that of M_MAX, and for M_MAX = 120 it has 127 bits. -/
theorem lengthsFitTheirRegisters : Obligations.LengthsFitTheirRegisters := by
  unfold Obligations.LengthsFitTheirRegisters
  exact fun c => ⟨fun m _ hmax => c.encoded_le_nMax hmax, c.nMax_le, sw_le c⟩

/-- Settles O49: well-formedness fixes the bits that CWOUT does not show. -/
theorem cwoutAndLenDetermineCodeword : Obligations.CwoutAndLenDetermineCodeword := by
  unfold Obligations.CwoutAndLenDetermineCodeword
  exact fun c x y hx hy hlen hcwout => hx.cw_eq hy hlen hcwout

/-- Settles O50: each load completes with a length that holds din. -/
theorem cwoutAfterLoadIsDin : Obligations.CwoutAfterLoadIsDin := by
  unfold Obligations.CwoutAfterLoadIsDin
  have hmn := Config.reference.mMax_le_nMax
  intro rd s t
  refine ⟨fun hmax => ?loadi, fun m h1 hmax hfits => ?loadb, fun n h1 hmax hfits => ?loadc⟩
  case loadi => exact cwout_of_exec_load (loadi_ok hmax) (hmax.trans hmn) (lt_two_pow_mw _)
  case loadb => exact cwout_of_exec_load (loadb_ok h1 hmax hfits) (hmax.trans hmn) hfits
  case loadc => exact cwout_of_exec_load (loadc_ok h1 hmax hfits) hmax hfits

/-- Settles O51: CWOUT fits the length it was read with, so LOADC takes it and completes. -/
theorem loadcOfCwoutReproduces : Obligations.LoadcOfCwoutReproduces := by
  unfold Obligations.LoadcOfCwoutReproduces
  intro rd r s hinv hst hdin
  have hwf := Arch.Inv.reg hinv r
  obtain ⟨h1, hmax⟩ := hwf.populated_length hst
  refine ⟨_, exec_of_ok (loadc_ok h1 hmax (hdin ▸ CodewordReg.toNat_cwout_lt hmax)), ?_⟩
  rw [Arch.reg_setReg, hdin, loadedReg_cwout hwf hst]

/-- Settles O52: below `2^M_MAX` the minimal width is a payload length that holds din, so both loads complete alike. -/
theorem loadbAtMinimalWidthIsLoadi : Obligations.LoadbAtMinimalWidthIsLoadi := by
  unfold Obligations.LoadbAtMinimalWidthIsLoadi
  intro rd s hdin
  have hmax : mw s.port.din.toNat ≤ Config.reference.mMax := (mw_le_iff _ _).2 ⟨Config.reference.mMax_pos, hdin⟩
  rw [exec_eq, exec_eq, perform, perform, loadb_ok (mw_pos _) hmax (lt_two_pow_mw _), loadi_ok hmax]

end Sys2Proof.Machine
end

section
/-! Several flipped bits of a clean codeword, and the host's correction of a single one (43_decoder.md R134, R135): the
syndrome is the XOR of the flipped positions, in every configuration. -/

namespace Sys2Proof.Machine

variable {c : Config}

/-! ### A register after several FLIPs -/

/-- The register with the bits at the positions of a list toggled, one after another. -/
def flippedAll (x : CodewordReg c) (ps : List Nat) : CodewordReg c := ps.foldl flippedReg x

@[simp] theorem flippedAll_nil (x : CodewordReg c) : flippedAll x [] = x := rfl
@[simp] theorem flippedAll_cons (x : CodewordReg c) (p : Nat) (ps : List Nat) :
    flippedAll x (p :: ps) = flippedAll (flippedReg x p) ps := rfl

@[simp] theorem flippedAll_length (x : CodewordReg c) (ps : List Nat) : (flippedAll x ps).length = x.length := by
  induction ps generalizing x with
  | nil => rfl
  | cons p ps ih => rw [flippedAll_cons, ih, flippedReg_length]

@[simp] theorem flippedAll_st (x : CodewordReg c) (ps : List Nat) : (flippedAll x ps).st = x.st := by
  induction ps generalizing x with
  | nil => rfl
  | cons p ps ih => rw [flippedAll_cons, ih, flippedReg_st]

/-- Each toggled bit changes the syndrome by its position (40_layout.md R91). -/
theorem flippedAll_syndrome {x : CodewordReg c} (hx : x.WF) (hst : flipAllowed x.st = true) {ps : List Nat}
    (hps : ∀ p ∈ ps, 1 ≤ p ∧ p ≤ x.length) : (flippedAll x ps).syndrome = ps.foldl (· ^^^ ·) x.syndrome := by
  induction ps generalizing x with
  | nil => rfl
  | cons p ps ih =>
    obtain ⟨⟨h1, h2⟩, hrest⟩ := List.forall_mem_cons.1 hps
    rw [flippedAll_cons, ih (flippedReg_wf hx hst h1 h2) hst hrest, flippedReg_syndrome hx h1 h2, List.foldl_cons]

/-- The syndrome of a clean codeword with toggled bits is the XOR of their positions (R135). -/
theorem CodewordReg.Clean.flippedAll_syndrome {x : CodewordReg c} (hclean : x.Clean) (hx : x.WF) {ps : List Nat}
    (hps : ∀ p ∈ ps, 1 ≤ p ∧ p ≤ x.length) : (flippedAll x ps).syndrome = ps.foldl (· ^^^ ·) 0 := by
  rw [Machine.flippedAll_syndrome hx ((flipAllowed_iff _).2 (.inr hclean.1)) hps, hclean.syndrome_eq_zero]

/-! ### The commands -/

/-- SYNDROME writes no codeword register. -/
@[simp] theorem Arch.reg_syndrome_result (a : Arch c) (syn : BitVec c.sw) (status : Status) (r : Reg) :
    ({ a with syn := syn, status := status } : Arch c).reg r = a.reg r := by
  cases r <;> rfl

/-- Samples that FLIP positions within the length toggle these bits and change nothing else. -/
theorem presentAll_flips {rd : Reg} {ps : List Nat} {a : Arch c} (hst : flipAllowed (a.reg rd).st = true)
    (hps : ∀ p ∈ ps, 1 ≤ p ∧ p ≤ (a.reg rd).length) :
    a.presentAll (ps.map fun p => ⟨encode (.flip rd p), 0#_, false⟩) = a.setReg rd (flippedAll (a.reg rd) ps) := by
  induction ps generalizing a with
  | nil => exact (a.setReg_reg rd).symm
  | cons p ps ih =>
    obtain ⟨⟨h1, h2⟩, hrest⟩ := List.forall_mem_cons.1 hps
    have hwf : (Instr.flip rd p).wellFormed = true :=
      decide_eq_true (Nat.le_of_lt_succ (h2.trans_lt (a.reg rd).len.isLt))
    have hflip : perform (.flip rd p) 0#c.nMax a = .ok (a.setReg rd (flippedReg (a.reg rd) p)) := flip_ok hst h1 h2
    rw [List.map_cons, Arch.presentAll_cons, Arch.present_encode_of_ok hwf hflip,
      ih (by simpa using hst) (by simpa using hrest), Arch.reg_setReg, Arch.setReg_setReg, flippedAll_cons]

/-- A sample of SYNDROME on a POPULATED register writes the register's syndrome to SYN. -/
theorem present_syndrome_syn {rd : Reg} {a : Arch c} (h : (a.reg rd).st = .populated) (din : BitVec c.nMax) :
    (a.present ⟨encode (.syndrome rd), din, false⟩).syn = BitVec.ofNat c.sw (a.reg rd).syndrome := by
  rw [Arch.present_encode_of_ok (i := .syndrome rd) rfl (syndrome_ok h)]

/-- What a FLIP that completes leaves in its register. -/
theorem reg_of_exec_flip {rd : Reg} {pos : Nat} {s t : State} (hst : flipAllowed (s.arch.reg rd).st = true)
    (h1 : 1 ≤ pos) (h2 : pos ≤ (s.arch.reg rd).length) (h : exec (.flip rd pos) s = .next t) :
    t.arch.reg rd = flippedReg (s.arch.reg rd) pos := by
  rw [exec_flip_of_allowed hst h1 h2] at h
  obtain rfl := Host.Outcome.next.inj h
  exact Arch.reg_setReg _ _ _

/-- What a SYNDROME that completes leaves in SYN, and that it leaves the registers. -/
theorem syn_and_regs_of_exec_syndrome {rd : Reg} {s t : State} (hst : (s.arch.reg rd).st = .populated)
    (hlen : (s.arch.reg rd).length ≤ Config.reference.nMax) (h : exec (.syndrome rd) s = .next t) :
    t.arch.syn.toNat = (s.arch.reg rd).syndrome ∧ ∀ r, t.arch.reg r = s.arch.reg r := by
  rw [exec_syndrome_of_populated hst] at h
  obtain rfl := Host.Outcome.next.inj h
  exact ⟨CodewordReg.toNat_ofNat_syndrome hlen, Arch.reg_syndrome_result _ _ _⟩

/-! ### The obligations -/

/-- Settles O60: FLIPs within the length toggle their bits, which changes the syndrome from 0 to the XOR of their
positions. -/
theorem severalErrorsGiveXorOfPositions : Obligations.SeveralErrorsGiveXorOfPositions := by
  unfold Obligations.SeveralErrorsGiveXorOfPositions
  constructor
  · intro c a rd ps hinv hclean hps
    have hwf := hinv.reg rd
    rw [Arch.presentAll_append, presentAll_flips ((flipAllowed_iff _).2 (.inr hclean.1)) hps]
    refine (congrArg BitVec.toNat (present_syndrome_syn (by simpa using hclean.1) _)).trans ?_
    rw [Arch.reg_setReg, CodewordReg.toNat_ofNat_syndrome ((flippedAll_length _ _).trans_le hwf.length_le),
      hclean.flippedAll_syndrome hwf hps]
  · intro rd p q s hinv hclean hp1 hp2 hq1 hq2 hne
    have hwf := Arch.Inv.reg hinv rd
    have hallowed := (flipAllowed_iff _).2 (.inr hclean.1)
    have hsyn : (flippedReg (flippedReg (s.arch.reg rd) p) q).syndrome = p ^^^ q := by
      rw [flippedReg_syndrome (flippedReg_wf hwf hallowed hp1 hp2) hq1 hq2, hclean.flippedReg_syndrome hwf hp1 hp2]
    have hSYN := CodewordReg.toNat_ofNat_syndrome (x := flippedReg (flippedReg (s.arch.reg rd) p) q) hwf.length_le
    refine ⟨_, _, _, exec_flip_of_allowed hallowed hp1 hp2,
      exec_flip_of_allowed (by simpa using hallowed) hq1 (by simpa using hq2),
      exec_syndrome_of_populated (by simpa using hclean.1), ?_⟩
    simp only [Arch.reg_setReg, syndromeFlags_sz]
    exact ⟨hSYN.trans hsyn, decide_eq_false (hsyn ▸ mt Nat.xor_eq_zero_iff.1 hne)⟩

/-- Settles O58: SYN is the flipped position, so the host's FLIP toggles the same bit back. -/
theorem hostCorrectionRestores : Obligations.HostCorrectionRestores := by
  unfold Obligations.HostCorrectionRestores
  intro rd pos s t u hinv hclean h1 h2 ht hu
  have hwf := Arch.Inv.reg hinv rd
  have hallowed := (flipAllowed_iff _).2 (.inr hclean.1)
  have hreg_t : t.arch.reg rd = flippedReg (s.arch.reg rd) pos := reg_of_exec_flip hallowed h1 h2 ht
  obtain ⟨hSYN, hreg⟩ := syn_and_regs_of_exec_syndrome (by rw [hreg_t]; exact hclean.1)
    (by rw [hreg_t]; exact hwf.length_le) hu
  have hpos : u.arch.syn.toNat = pos := by rw [hSYN, hreg_t, hclean.flippedReg_syndrome hwf h1 h2]
  have hreg_u : u.arch.reg rd = flippedReg (s.arch.reg rd) pos := (hreg rd).trans hreg_t
  have hallowed_u : flipAllowed (u.arch.reg rd).st = true := by rw [hreg_u]; exact hallowed
  have h2_u : pos ≤ (u.arch.reg rd).length := by rw [hreg_u]; exact h2
  have hv := exec_flip_of_allowed hallowed_u h1 h2_u
  have hrestored := (reg_of_exec_flip hallowed_u h1 h2_u hv).trans (by rw [hreg_u, flippedReg_twice])
  obtain ⟨w, hw, -, hsz⟩ := exec_syndrome_of_clean (hrestored.symm ▸ hclean)
  exact ⟨_, w, hpos.symm ▸ hv, hrestored, hw, hsz⟩

end Sys2Proof.Machine
end
